-- ==== Sys2Proof/Word.lean ====
section
/-! DEFINITION. The words of the datapath: the widths the spec fixes (00_scope.md R6, R7) and the types of the
ports and nets that carry them. All values are unsigned and bit 0 is the least significant (R10, R11). -/

namespace Sys2Proof

/-- W_IN, the width of `value_in` (R6). -/
def wIn : Nat := 8
/-- W_EXP, the width of the expanded word (R6). -/
def wExp : Nat := 24
/-- STRIDE, how many output bits one input bit fills (R6). -/
def stride : Nat := 3
/-- N_LANES, how many lanes there are (R6). -/
def nLanes : Nat := 3
/-- W_LANE, the width of a lane (R6). -/
def wLane : Nat := 8

/-- An 8-bit word: the input value (R37) or one lane (R39). -/
abbrev Byte := BitVec 8

/-- The net `v1`, 16 bits (R7). -/
abbrev NetV1 := BitVec 16
/-- The net `v2`, 20 bits (R7). -/
abbrev NetV2 := BitVec 20
/-- The net `v3`, 22 bits (R7). -/
abbrev NetV3 := BitVec 22
/-- The net `expanded`, 24 bits (R7, R38). -/
abbrev Expanded := BitVec 24

/-- The output triple, an ordered sequence of exactly three 8-bit values, least-significant lane first
(R21, R39, R61). In the source's other names lane k is field k, and (lane0, lane1, lane2) = (a, b, c). -/
structure Lanes where
  lane0 : Byte
  lane1 : Byte
  lane2 : Byte
  deriving DecidableEq, Repr

end Sys2Proof
end

