-- ==== Sys2Proof/Machine/Transaction.lean ====
section
/-! DEFINITION. The host's transaction notation (30_encoding.md R43), as data: what the outside world can do to the
block. `APPLY`, `WAIT`, `SAMPLE` and `CALL` act on the block's ports; `SET` and `IF ... GOTO` are steps of the host on
its own variables and "are not part of the block". -/

namespace Sys2Proof.Machine

/-- A host variable, by number; a label is the index of a line. -/
abbrev HostVar := Nat

/-- A host expression: the operators of R11 (exact product, `&`, `|`, `<<`, `>>`) and those the spec's programs use
beside them (`+`, `==`; 95_test_vectors.md section 4). Log entry 8. -/
inductive HostExpr where
  | lit (n : Nat)
  | var (r : HostVar)
  | add (a b : HostExpr)
  | mul (a b : HostExpr)
  | and (a b : HostExpr)
  | or (a b : HostExpr)
  | shl (a b : HostExpr)
  | shr (a b : HostExpr)
  | eq (a b : HostExpr)
  deriving DecidableEq, Repr

/-- The argument of a call at the boundary: an integer of any size and sign, or something that is no integer
(60_exceptions.md R64). -/
inductive CallArg where
  | integer (n : Int)
  | notInteger
  deriving DecidableEq, Repr

/-- One line of the transaction notation (R43). -/
inductive HostLine where
  /-- `APPLY e`: drive `value_in` with the byte `e` evaluates to. -/
  | apply (e : HostExpr)
  /-- `value_in` is left floating or at an unknown logic level (R75). -/
  | applyUndefined
  /-- `WAIT`: let T_PD elapse with the input held stable. -/
  | wait
  /-- `SAMPLE -> (r0, r1, r2)`: read the three lane ports. -/
  | sample (r0 r1 r2 : HostVar)
  /-- `SET r = e`. -/
  | set (r : HostVar) (e : HostExpr)
  /-- `IF c GOTO line`. -/
  | ifGoto (c : HostExpr) (target : Nat)
  /-- `CALL a -> (r0, r1, r2)`: shorthand for APPLY, WAIT, SAMPLE. -/
  | call (a : CallArg) (r0 r1 r2 : HostVar)
  deriving DecidableEq, Repr

/-- The host's variables: pairs of a variable and its value, the variables strictly rising; an unlisted variable is
unset (95_test_vectors.md section 4: "All host variables are unset"). -/
abbrev HostVars := List (HostVar × Nat)

/-- The canonical form: variables strictly rising. -/
abbrev HostVars.wf (m : HostVars) : Prop := m.Pairwise (fun a b => a.1 < b.1)

/-- The value of a variable, if it is set. -/
def HostVars.get : HostVars → HostVar → Option Nat
  | [], _ => none
  | (k, n) :: m, r => if k = r then some n else HostVars.get m r

/-- Set a variable, keeping the canonical form. -/
def HostVars.put : HostVars → HostVar → Nat → HostVars
  | [], r, n => [(r, n)]
  | (k, x) :: m, r, n =>
    if r < k then (r, n) :: (k, x) :: m
    else if r = k then (r, n) :: m
    else (k, x) :: HostVars.put m r n

/-- The value of a host expression, or the first unset variable it reads. Arithmetic is exact on natural numbers and
shifts fill with zero (R11). -/
def HostExpr.eval (m : HostVars) : HostExpr → Except HostVar Nat
  | .lit n => .ok n
  | .var r => match m.get r with
    | some n => .ok n
    | none => .error r
  | .add a b => do return (← a.eval m) + (← b.eval m)
  | .mul a b => do return (← a.eval m) * (← b.eval m)
  | .and a b => do return (← a.eval m) &&& (← b.eval m)
  | .or a b => do return (← a.eval m) ||| (← b.eval m)
  | .shl a b => do return (← a.eval m) <<< (← b.eval m)
  | .shr a b => do return (← a.eval m) >>> (← b.eval m)
  | .eq a b => do return if (← a.eval m) = (← b.eval m) then 1 else 0

end Sys2Proof.Machine
end

