-- ==== Sys2Proof/Syntax.lean ====
section
/-! DEFINITION. The operations of the block: one constructor for each row of spec/opcode_table.json (30_encoding.md
R41). They carry no operand: every operation reads and drives fixed ports and nets (40_spread.md, 41_decompose.md). -/

namespace Sys2Proof

/-- The six rows of the operation map (R41). -/
inductive Instr where
  /-- STG1, `v1 <- (value_in * 0x101) & 0x0F00F` (R44). -/
  | stg1
  /-- STG2, `v2 <- (v1 * 0x11) & 0x0C30C3` (R45). -/
  | stg2
  /-- STG3, `v3 <- (v2 * 5) & 0x249249` (R46). -/
  | stg3
  /-- STG4, `expanded <- v3 * 7` (R47). -/
  | stg4
  /-- SPREAD, the composite of STG1 to STG4 (R48). -/
  | spread
  /-- DECOMPOSE, the three lanes of `expanded` (R56, R57). -/
  | decompose
  deriving DecidableEq, Repr

end Sys2Proof
end

