-- ==== Sys2Proof/WellFormed.lean ====
section
/-! DEFINITION. Well-formedness. An operation has no operand, so every `Instr` is well formed; what can be ill formed is
an evaluation (30_encoding.md R36 fixes its operations and their order) and a line of the host's notation (its duty
toward the block: R42, R64, R75, R78). -/

namespace Sys2Proof

/-- One evaluation: the input value and the operations performed on it, in order (R36). -/
structure Evaluation where
  value : Byte
  ops : List Instr
  deriving DecidableEq, Repr

/-- Every operation is well formed: it has no operand field that could be wrong (R36, R41). -/
def Instr.wf : Instr → Bool
  | .stg1 => true
  | .stg2 => true
  | .stg3 => true
  | .stg4 => true
  | .spread => true
  | .decompose => true

/-- "Every evaluation performs both operations on the present input, in this order" (R36): SPREAD, then DECOMPOSE,
each once, whatever the value (R37). -/
def Evaluation.wf (e : Evaluation) : Bool := e.ops == [.spread, .decompose]

namespace Machine

/-- A call's argument is an integer in [0,255] (R64). -/
def CallArg.wf : CallArg → Bool
  | .integer n => 0 ≤ n && n ≤ 255
  | .notInteger => false

/-- A line keeps the host's duty as far as its text shows: a literal that is applied is a byte (R42, R78), the input is
driven to a defined level (R75), a call is in range (R64), a sample names three variables. -/
def HostLine.wf : HostLine → Bool
  | .apply (.lit n) => n ≤ 255
  | .apply _ => true
  | .applyUndefined => false
  | .wait => true
  | .sample r0 r1 r2 => r0 != r1 && r0 != r2 && r1 != r2
  | .set _ _ => true
  | .ifGoto _ _ => true
  | .call a r0 r1 r2 => a.wf && r0 != r1 && r0 != r2 && r1 != r2

/-- A program is well formed when its lines are and every jump stays inside it or goes to its end. -/
def hostProgramWf (p : List HostLine) : Bool :=
  p.all fun l => l.wf && match l with
    | .ifGoto _ t => t ≤ p.length
    | _ => true

end Machine

end Sys2Proof
end

