-- ==== Sys2Proof/Decode.lean ====
section
/-! DEFINITION. The operation map (30_encoding.md R41, spec/opcode_table.json) and the decoder over it. The block has
no instruction word, opcode field or operation-select input (R36): every row of the table has match 0 and mask 0, "no
select bits: always performed". So a word on the input port selects nothing; it is the input VALUE (R37, R43), and
decoding it gives the evaluation that the block performs on it. -/

namespace Sys2Proof

/-- The two row formats of spec/opcode_table.json. -/
inductive RowFormat where
  | internalStage
  | combAlways
  deriving DecidableEq, Repr

/-- One row of spec/opcode_table.json. -/
structure OpcodeRow where
  mnemonic : String
  format : RowFormat
  matchBits : Nat
  mask : Nat
  deriving DecidableEq, Repr

/-- The row of each operation (R41). -/
def Instr.row : Instr → OpcodeRow
  | .stg1 => ⟨"STG1", .internalStage, 0x0, 0x0⟩
  | .stg2 => ⟨"STG2", .internalStage, 0x0, 0x0⟩
  | .stg3 => ⟨"STG3", .internalStage, 0x0, 0x0⟩
  | .stg4 => ⟨"STG4", .internalStage, 0x0, 0x0⟩
  | .spread => ⟨"SPREAD", .combAlways, 0x0, 0x0⟩
  | .decompose => ⟨"DECOMPOSE", .combAlways, 0x0, 0x0⟩

/-- The table's rows, in its order. -/
def opcodeTable : List Instr := [.stg1, .stg2, .stg3, .stg4, .spread, .decompose]

/-- A word meets a row when its bits under the row's mask are the row's match. -/
def OpcodeRow.selects (r : OpcodeRow) (w : Nat) : Bool := w &&& r.mask == r.matchBits

/-- The rows a word meets, in the table's order. -/
def rowsSelected (w : Nat) : List Instr := opcodeTable.filter fun i => i.row.selects w

/-- The operations an evaluation of a word performs (R36): the rows it meets that are operations of the block. The
stages are rows of SPREAD's inside (R41: "composite of STG1-STG4"). -/
def operationsOn (w : Nat) : List Instr := (rowsSelected w).filter fun i => i.row.format == .combAlways

/-- The stages an operation is performed through (R36, R48). -/
def Instr.stages : Instr → List Instr
  | .spread => [.stg1, .stg2, .stg3, .stg4]
  | .stg1 => [.stg1]
  | .stg2 => [.stg2]
  | .stg3 => [.stg3]
  | .stg4 => [.stg4]
  | .decompose => [.decompose]

/-- An evaluation performs an operation itself, or as a stage of one. -/
def Evaluation.performs (e : Evaluation) (i : Instr) : Bool :=
  e.ops.any fun o => o == i || o.stages.contains i

/-- Why no evaluation can be decoded. -/
inductive DecodeReject where
  /-- There is no word on the port: it is not driven to a defined 8-bit value (R75). -/
  | noInputWord
  deriving DecidableEq, Repr

/-- Decode the words driven on the port, first word first: one 8-bit word is one evaluation (R37), the rest is what is
driven after it. No 8-bit word is reserved or illegal (R42). -/
def decode : List Byte → Except DecodeReject (Evaluation × List Byte)
  | [] => .error .noInputWord
  | b :: rest => .ok (⟨b, operationsOn b.toNat⟩, rest)

/-- The words of an evaluation: the one 8-bit word driven on `value_in` (R37, R43). -/
def Evaluation.encode (e : Evaluation) : List Byte := [e.value]

/-- The words on which an operation is performed, for the input value `v`: `v` with the row's select bits set to its
match. The row has none (mask 0), so this is `v` itself. -/
def Instr.encode (i : Instr) (v : Byte) : List Byte :=
  [(v &&& ~~~(BitVec.ofNat 8 i.row.mask)) ||| BitVec.ofNat 8 i.row.matchBits]

/-- What the decoder reads from a table word: the FIRST operation of the evaluation its bits give. A word above 255
cannot be driven onto the 8-bit port and is not truncated to it (R42, R64). Log entry 6. -/
def decodeTableWord (_nbits w : Nat) : Option Instr :=
  if w < 256 then
    match decode [BitVec.ofNat 8 w] with
    | .ok (e, _) => e.ops.head?
    | .error _ => none
  else none

end Sys2Proof
end

