-- ==== Sys2Proof/Config.lean ====
section
/-! DEFINITION. What the spec leaves open, as constants WITHOUT a body: nothing in Lean can evaluate one or prove a
value of it. The datapath itself has no parameter (00_scope.md R9); its only open parameter is the settling time T_PD
(R8), which Machine/Timing.lean takes as an argument and of whose magnitude nothing is assumed.

`stream` names one instance of the block and `draw` is a plain counter that the step advances, so that each
unspecified value is a fresh one (log entries 2, 3, 4 and 7). -/

namespace Sys2Proof.Config

/-- The level of net `v1` while it is unspecified (R77, R79; 93 U4, U5). -/
opaque freeV1 (stream draw : Nat) : NetV1
/-- The level of net `v2` while it is unspecified (R77, R79; 93 U4, U5). -/
opaque freeV2 (stream draw : Nat) : NetV2
/-- The level of net `v3` while it is unspecified (R77, R79; 93 U4, U5). -/
opaque freeV3 (stream draw : Nat) : NetV3
/-- The level of net `expanded` while it is unspecified (R77, R79; 93 U4, U5). -/
opaque freeExpanded (stream draw : Nat) : Expanded
/-- The unconstrained draw of one 8-bit lane: a lane port's level, or one sample of it, while it is unspecified
(R75, R77, R79, R80, R85; 93 U4, U5). -/
opaque freeLane (stream draw lane : Nat) : Byte

/-- Whether a settling block settles before the host's next line: `settle` is a block step that is always enabled in
status `settling`, and nothing says when it is taken (R8, R85; log entry 7). -/
opaque settlesFirst (stream draw : Nat) : Bool

/-- What STG4 drives when `v3 * 7` is no 24-bit number. STG4 has no mask (R47) and the spec states no result there,
since no net value that meets STG3's mask can give such a product (R50); log entry 5. DESIGN CHOICE. -/
opaque stg4Overflow (v3 : NetV3) : Expanded

end Sys2Proof.Config
end

