-- ==== Sys2Proof/Machine/State.lean ====
section
/-! DEFINITION. The state, as plain data. The block holds no architectural state (10_state.md R13): its machine state is the
pair of the input port's value and the settling status, `Block`, and nothing else (R13, R85). A `State` is that pair with
three things that are no state of the block: the levels that the operations last drove onto the nets and the lane ports
(R19, R21), so that an operation's effect can be seen, which no step reads from an earlier one; the supply of free values,
the model's own; and the host that acts on the ports (30_encoding.md R43). -/

namespace Sys2Proof.Machine

/-- The level of the input port `value_in` (R20): a defined 8-bit value, or not (yet) driven to one (R75, R77). -/
inductive PortLevel where
  | undriven
  | driven (v : Byte)
  deriving DecidableEq, Repr

/-- The settling status (R85). -/
inductive Status where
  | settling
  | settled
  deriving DecidableEq, Repr

/-- THE BLOCK'S MACHINE STATE: "only the input port value and the settling status" (R13), the pair of R85. -/
structure Block where
  /-- `value_in[7:0]` (R20, R85). -/
  valueIn : PortLevel
  /-- `settling` or `settled` (R85). -/
  status : Status
  deriving DecidableEq, Repr

/-- The internal nets (R19). They are wires: no register holds them. -/
structure Nets where
  v1 : NetV1
  v2 : NetV2
  v3 : NetV3
  expanded : Expanded
  deriving DecidableEq, Repr

/-- The levels last driven onto the wires: what the operations drive, no state of the block (R12, R13, R19). A sample does
not read them (R85); that they show what it reads is an invariant. -/
structure Levels where
  /-- the levels of `v1`, `v2`, `v3`, `expanded` (R19) -/
  nets : Nets
  /-- the levels of `lane0_out`, `lane1_out`, `lane2_out` (R21) -/
  lanes : Lanes
  deriving DecidableEq, Repr

/-- The supply of free values, the model's own (log entry 3). -/
structure Supply where
  /-- how many free values were drawn -/
  draws : Nat
  /-- which stream of free values this block draws from -/
  stream : Nat
  deriving DecidableEq, Repr

/-- The host beside the block: its program in the transaction notation, the line it is at, its variables (R43). -/
structure HostSide where
  program : List HostLine
  line : Nat
  vars : HostVars
  deriving DecidableEq, Repr

/-- What a step maps to the next: the block's machine state, beside it the levels of its wires, the supply of free values,
and the host. -/
structure State extends Block, Levels, Supply where
  /-- the host's program, line and variables (R43) -/
  host : HostSide
  deriving DecidableEq, Repr

/-- The faults of a step: NONE. "The block raises no exception, fault or error of any kind" and "a Lean model of the
block has no fault outcome" (60_exceptions.md R63), so the type has no constructor, which is safe. -/
inductive Fault where
  deriving DecidableEq, Repr

/-- Why a step is refused. -/
inductive Refusal where
  /-- An operation without a meaning, raised by no arm of `exec` (safe). -/
  | notModelled (mnemonic : String)
  /-- `value_in` is not driven to a defined 8-bit value: raised by an operation that reads it, by an evaluation, and by
  a host line that would leave it undefined. R75: "It refuses a launch that lacks the premise" (93 U6). Safe. -/
  | undefinedInput
  /-- The host called or applied a value outside [0,255] or a non-integer: raised by `APPLY` and `CALL`. R64: "must make
  the out-of-range call a refusal of the launch, never an evaluation" (93 U1). Safe. -/
  | invalidInputRange
  /-- A host expression reads a host variable that is unset: raised by `APPLY`, `SET` and `IF` (log entry 8). Safe. -/
  | unsetHostVariable (r : HostVar)
  /-- There is no instance of this number in the system: raised by `stepAt` (log entry 9). Safe. -/
  | noSuchInstance (k : Nat)
  deriving DecidableEq, Repr

/-- Three lanes of free values. -/
def drawLanes (stream draw : Nat) : Lanes :=
  ⟨Config.freeLane stream draw 0, Config.freeLane stream draw 1, Config.freeLane stream draw 2⟩

/-- Four nets of free values. -/
def drawNets (stream draw : Nat) : Nets :=
  ⟨Config.freeV1 stream draw, Config.freeV2 stream draw, Config.freeV3 stream draw, Config.freeExpanded stream draw⟩

/-- The block at power-up (R77; 95_test_vectors.md section 4): powered, its input not yet driven, its status `settling`,
its nets and outputs unspecified ("zero is not guaranteed"), its host without a program and without a set variable. -/
def State.powerUp (stream : Nat) : State where
  valueIn := .undriven
  status := .settling
  nets := drawNets stream 0
  lanes := drawLanes stream 0
  draws := 1
  stream := stream
  host := ⟨[], 0, []⟩

/-- The block has no reset input and no reset state (R76); the machine begins at power-up. -/
def State.reset : State := State.powerUp 0

end Sys2Proof.Machine
end

