-- ==== Sys2Proof/Machine/Flags.lean ====
section
/-! DEFINITION. Flags: the block has none (10_state.md R16: no status bit, no carry or overflow output). What is left to
say once is when a product fits its net (40_spread.md R50), which decides whether R47 states STG4's result. -/

namespace Sys2Proof.Machine

/-- A number fits a net of `w` bits. -/
def fits (w n : Nat) : Bool := n < 2 ^ w

end Sys2Proof.Machine
end

