-- ==== Sys2Proof/Machine/Operands.lean ====
section
/-! DEFINITION. The operands: what an operation reads and what it drives (the "Operands" line of each rule of
40_spread.md and 41_decompose.md). There are no register, memory or immediate operands (10_state.md R14, 20_memory.md
R25, 30_encoding.md R40). `net <- expr` drives a wire and leaves every other one alone (00_scope.md R12). -/

namespace Sys2Proof.Machine

/-- The outcome of one step of this machine. -/
abbrev Result := Host.Outcome State Fault Refusal

/-- Do one thing and then another, stopping at the first stop. -/
def Result.andThen (o : Result) (f : State → Result) : Result :=
  match o with
  | .next s => f s
  | .fault r => .fault r
  | .refused r => .refused r

/-- Read `value_in`: its value when it is driven to one; otherwise the launch is refused (R75). -/
def withInput (s : State) (f : Byte → Result) : Result :=
  match s.valueIn with
  | .undriven => .refused .undefinedInput
  | .driven v => f v

/-- Drive net `v1`. -/
def State.driveV1 (s : State) (x : NetV1) : State := { s with nets := { s.nets with v1 := x } }

/-- Drive net `v2`. -/
def State.driveV2 (s : State) (x : NetV2) : State := { s with nets := { s.nets with v2 := x } }

/-- Drive net `v3`. -/
def State.driveV3 (s : State) (x : NetV3) : State := { s with nets := { s.nets with v3 := x } }

/-- Drive net `expanded`. -/
def State.driveExpanded (s : State) (x : Expanded) : State := { s with nets := { s.nets with expanded := x } }

/-- Drive the three output ports, all of them together (R58). -/
def State.driveLanes (s : State) (l : Lanes) : State := { s with lanes := l }

/-- The words on the input port: none while it is not driven, else its one 8-bit word (R37). -/
def PortLevel.words : PortLevel → List Byte
  | .undriven => []
  | .driven v => [v]

end Sys2Proof.Machine
end

