-- ==== Sys2Proof/Machine/Ops.lean ====
section
/-! DEFINITION. The shared operations: the arithmetic of the four stages and of the lanes, and what happens at the
ports. Arithmetic is exact on natural numbers and narrowed once, at the net (00_scope.md R7, R11).

TAKING AN EXCEPTION and returning from one: there is no such operation. Nothing is ever raised, saved, vectored or
returned from (60_exceptions.md R63, R66, R68). -/

namespace Sys2Proof.Machine

/-! ### The hardwired constants (30_encoding.md R40) -/

/-- STG1's multiplier. -/
def mul1 : Nat := 0x101
/-- STG1's mask. -/
def mask1 : Nat := 0x0F00F
/-- STG2's multiplier. -/
def mul2 : Nat := 0x11
/-- STG2's mask. -/
def mask2 : Nat := 0x0C30C3
/-- STG3's multiplier. -/
def mul3 : Nat := 5
/-- STG3's mask. -/
def mask3 : Nat := 0x249249
/-- STG4's multiplier; STG4 has no mask. -/
def mul4 : Nat := 7
/-- DECOMPOSE's mask. -/
def laneMask : Nat := 0xFF

/-! ### The stages and the lanes -/

/-- STG1: `(zext_16(value_in) * 0x101) & 0x0F00F` (R44). -/
def stage1 (v : Byte) : NetV1 := BitVec.ofNat 16 ((v.toNat * mul1) &&& mask1)

/-- STG2: `(zext_20(v1) * 0x11) & 0x0C30C3` (R45). -/
def stage2 (x : NetV1) : NetV2 := BitVec.ofNat 20 ((x.toNat * mul2) &&& mask2)

/-- STG3: `(zext_22(v2) * 5) & 0x249249` (R46). -/
def stage3 (x : NetV2) : NetV3 := BitVec.ofNat 22 ((x.toNat * mul3) &&& mask3)

/-- STG4: `zext_24(v3) * 7`, no mask (R47). Where the exact product is no 24-bit number, which no value that meets
STG3's mask gives (R50), the spec states no result and the value is free (log entry 5). -/
def stage4 (x : NetV3) : Expanded :=
  if fits 24 (x.toNat * mul4) then BitVec.ofNat 24 (x.toNat * mul4) else Config.stg4Overflow x

/-- The expanded word that the four stages in series give (R48). -/
def spreadWord (v : Byte) : Expanded := stage4 (stage3 (stage2 (stage1 v)))

/-- DECOMPOSE: `a = E & 0xFF`, `b = (E >> 8) & 0xFF`, `c = (E >> 16) & 0xFF` (R56). -/
def decomposeWord (e : Expanded) : Lanes :=
  ⟨BitVec.ofNat 8 (e.toNat &&& laneMask),
   BitVec.ofNat 8 ((e.toNat >>> 8) &&& laneMask),
   BitVec.ofNat 8 ((e.toNat >>> 16) &&& laneMask)⟩

/-! ### The block's transitions (70_reset_and_hazards.md R85), on its machine state alone (10_state.md R13) -/

/-- `apply v`: the input is `v` and the status `settling`, whatever they were. -/
def Block.apply (v : Byte) : Block := ⟨.driven v, .settling⟩

/-- `settle`: the status is `settled`. -/
def Block.settle (b : Block) : Block := { b with status := .settled }

/-- The value the block has settled on, if it has. -/
def Block.settledOn (b : Block) : Option Byte :=
  match b.status, b.valueIn with
  | .settled, .driven v => some v
  | .settled, .undriven => none
  | .settling, _ => none

/-- `sample`: settled, "it returns DECOMPOSE(SPREAD(v))", a function of the present input alone (R22); otherwise an
unconstrained draw (R75, R80). -/
def Block.sample (b : Block) (draw : Lanes) : Lanes :=
  match b.settledOn with
  | some v => decomposeWord (spreadWord v)
  | none => draw

/-! ### The ports -/

/-- One more free value is drawn (log entry 3). -/
def State.drawn (s : State) : State := { s with draws := s.draws + 1 }

/-- `value_in` is driven to `v` and a new settling window starts (R81, R85), in which every net and every lane output is
unspecified (R79): fresh free values. -/
def State.driveInput (s : State) (v : Byte) : State :=
  { s with
    toBlock := Block.apply v
    nets := drawNets s.stream s.draws
    lanes := drawLanes s.stream s.draws
    draws := s.draws + 1 }

/-- The status becomes `settled` (R85). -/
def State.markSettled (s : State) : State := { s with toBlock := s.toBlock.settle }

/-- What a sample of the three lane ports reads (R21, R43, R85). -/
def State.sampled (s : State) : Lanes := s.toBlock.sample (drawLanes s.stream s.draws)

/-- What a sample leaves: no port has a read side effect (20_memory.md R29), so only the model's own counter of free
values moves, when one was drawn. -/
def State.afterSample (s : State) : State :=
  match s.toBlock.settledOn with
  | some _ => s
  | none => s.drawn

/-! ### The host -/

/-- The host has done its line and is at the next one (R43). -/
def State.nextLine (s : State) : State := { s with host := { s.host with line := s.host.line + 1 } }

/-- The host goes to a line. -/
def State.goto (s : State) (t : Nat) : State := { s with host := { s.host with line := t } }

/-- The host sets one of its variables. -/
def State.setVar (s : State) (r : HostVar) (n : Nat) : State := { s with host := { s.host with vars := s.host.vars.put r n } }

/-- The host keeps a sample in three of its variables, each lane as its unsigned value (41_decompose.md R61). -/
def State.keepSample (s : State) (l : Lanes) (r0 r1 r2 : HostVar) : State :=
  ((s.setVar r0 l.lane0.toNat).setVar r1 l.lane1.toNat).setVar r2 l.lane2.toNat

/-- Evaluate a host expression; an unset variable has no value to go on with (log entry 8). -/
def withExpr (s : State) (e : HostExpr) (f : Nat → Result) : Result :=
  match e.eval s.host.vars with
  | .ok n => f n
  | .error r => .refused (.unsetHostVariable r)

/-- Drive a number onto the port: only an integer in [0,255] is one, and no other is truncated to it (R42, R64). -/
def withByte (n : Int) (f : Byte → Result) : Result :=
  if 0 ≤ n ∧ n ≤ 255 then f (BitVec.ofNat 8 n.toNat) else .refused .invalidInputRange

end Sys2Proof.Machine
end

