-- ==== Sys2Proof/Machine/Decompose.lean ====
section
/-! DEFINITION. The meaning of DECOMPOSE (41_decompose.md). No flag, no exception (R16, R63). -/

namespace Sys2Proof.Machine

/-- DECOMPOSE reads the net `expanded` and drives the three lane outputs, all of them (R56, R57, R58), raw (R62). -/
def execDecompose (s : State) : Result := .next (s.driveLanes (decomposeWord s.nets.expanded))

end Sys2Proof.Machine
end

