-- ==== Sys2Proof/Machine/Spread.lean ====
section
/-! DEFINITION. The meanings of STG1, STG2, STG3, STG4 and SPREAD (40_spread.md). No flag, no exception (R16, R63). -/

namespace Sys2Proof.Machine

/-- STG1 reads `value_in` and drives `v1` (R44). -/
def execStg1 (s : State) : Result := withInput s fun v => .next (s.driveV1 (stage1 v))

/-- STG2 reads `v1` and drives `v2` (R45). -/
def execStg2 (s : State) : Result := .next (s.driveV2 (stage2 s.nets.v1))

/-- STG3 reads `v2` and drives `v3` (R46). -/
def execStg3 (s : State) : Result := .next (s.driveV3 (stage3 s.nets.v2))

/-- STG4 reads `v3` and drives `expanded` (R47). -/
def execStg4 (s : State) : Result := .next (s.driveExpanded (stage4 s.nets.v3))

/-- SPREAD reads `value_in` and drives `expanded` through its stages, "in series: each reads the net the stage before
drives" (R48), so it drives `v1`, `v2` and `v3` too (R19). -/
def execSpread (s : State) : Result :=
  withInput s fun v =>
    let v1 := stage1 v
    let v2 := stage2 v1
    let v3 := stage3 v2
    .next ((((s.driveV1 v1).driveV2 v2).driveV3 v3).driveExpanded (stage4 v3))

end Sys2Proof.Machine
end

