-- ==== Sys2Proof/Machine/Dispatch.lean ====
section
/-! DEFINITION. One arm for each operation of the map (30_encoding.md R41). -/

namespace Sys2Proof.Machine

def exec (i : Instr) (s : State) : Host.Outcome State Fault Refusal :=
  match i with
  | .stg1 => Sys2Proof.Machine.execStg1 s
  | .stg2 => Sys2Proof.Machine.execStg2 s
  | .stg3 => Sys2Proof.Machine.execStg3 s
  | .stg4 => Sys2Proof.Machine.execStg4 s
  | .spread => Sys2Proof.Machine.execSpread s
  | .decompose => Sys2Proof.Machine.execDecompose s

end Sys2Proof.Machine
end

