-- ==== Sys2Proof/Machine/Evaluate.lean ====
section
/-! DEFINITION. One evaluation of the block, and the lines of the host's notation. -/

namespace Sys2Proof.Machine

/-- Perform operations in order. -/
def runOps : List Instr → State → Result
  | [], s => .next s
  | i :: is, s => Result.andThen (exec i s) (runOps is)

/-- `settle` (70_reset_and_hazards.md R85): the block performs, on the word its input port carries, every operation an
evaluation performs (30_encoding.md R36), all in the one settling window (R84), and its status becomes `settled`. With no
defined word on the port there is nothing to evaluate and the launch is refused (R75). -/
def settle (s : State) : Result :=
  match decode s.valueIn.words with
  | .error .noInputWord => .refused .undefinedInput
  | .ok (e, _) => Result.andThen (runOps e.ops s) fun t => .next t.markSettled

/-- `APPLY e` (R43): drive the byte `e` evaluates to. -/
def hostApply (e : HostExpr) (s : State) : Result :=
  withExpr s e fun n => withByte n fun v => .next (s.driveInput v).nextLine

/-- `WAIT` (R43): T_PD elapses with the input held stable, so the block has settled (R79). -/
def hostWait (s : State) : Result := Result.andThen (settle s) fun t => .next t.nextLine

/-- `SAMPLE -> (r0, r1, r2)` (R43): read the three lane ports. -/
def hostSample (r0 r1 r2 : HostVar) (s : State) : Result :=
  .next (s.afterSample.keepSample s.sampled r0 r1 r2).nextLine

/-- `SET r = e` (R43). -/
def hostSet (r : HostVar) (e : HostExpr) (s : State) : Result :=
  withExpr s e fun n => .next (s.setVar r n).nextLine

/-- `IF c GOTO line` (R43): a condition holds when it is not 0. -/
def hostIfGoto (c : HostExpr) (target : Nat) (s : State) : Result :=
  withExpr s c fun n => if n = 0 then .next s.nextLine else .next (s.goto target)

/-- `CALL a -> (r0, r1, r2)` (R36, R43): APPLY, WAIT and SAMPLE, as one. The boundary rejects an argument that is no
integer in [0,255] before the block is reached (R64). -/
def hostCall (a : CallArg) (r0 r1 r2 : HostVar) (s : State) : Result :=
  match a with
  | .notInteger => .refused .invalidInputRange
  | .integer n => withByte n fun v =>
      Result.andThen (settle (s.driveInput v)) fun t => .next (t.afterSample.keepSample t.sampled r0 r1 r2).nextLine

/-- One line of the host's notation. -/
def hostStep (l : HostLine) (s : State) : Result :=
  match l with
  | .apply e => hostApply e s
  | .applyUndefined => .refused .undefinedInput
  | .wait => hostWait s
  | .sample r0 r1 r2 => hostSample r0 r1 r2 s
  | .set r e => hostSet r e s
  | .ifGoto c t => hostIfGoto c t s
  | .call a r0 r1 r2 => hostCall a r0 r1 r2 s

/-- The line the host is at, if its program has one there. -/
def HostSide.current (h : HostSide) : Option HostLine := h.program[h.line]?

/-- Whether the block may settle before the host's line `l`: `settle` is "always enabled in status `settling`" (R85), with
its launch premise, a driven input (R75). A WAIT takes it itself. -/
def State.maySettleBefore (s : State) (l : HostLine) : Bool :=
  l != .wait && s.status == .settling && s.valueIn != .undriven

/-- The host is at line `l`. Where the block may settle first, a free value says whether it does, as a step of its own
(R85; log entry 7); otherwise the step is the line. -/
def takeLine (l : HostLine) (s : State) : Result :=
  if s.maySettleBefore l then
    if Config.settlesFirst s.stream s.draws then settle s.drawn else hostStep l s.drawn
  else hostStep l s

/-- The state in which the block is about to evaluate a word and the host has nothing left to do. -/
def State.withWord (s : State) (w : Nat) : State :=
  if w < 256 then
    let t := s.driveInput (BitVec.ofNat 8 w)
    { t with host := { t.host with program := [], line := 0 } }
  else { s with host := { s.host with program := [.call (.integer w) 0 1 2], line := 0 } }

end Sys2Proof.Machine
end

