-- ==== Sys2Proof/Machine/Step.lean ====
section
/-! DEFINITION. One step of the machine: one of the transitions of 70_reset_and_hazards.md R85. The host's lines come in its
program's order; the block's `settle` may come before any of them while it settles; when the host has no line the step is
the block's. -/

namespace Sys2Proof.Machine

/-- One step. -/
def step (s : State) : Host.Outcome State Fault Refusal :=
  match s.host.current with
  | some l => takeLine l s
  | none => settle s

/-- The state in which the very next step evaluates the word `w`: it is driven on `value_in`, as the host does before an
evaluation (30_encoding.md R36 step 1), and the host has no line left (log entries 6 and 7). -/
def State.withFetchWord (s : State) (_nbits w : Nat) : State := s.withWord w

end Sys2Proof.Machine
end

