-- ==== Sys2Proof/Machine/Instances.lean ====
section
/-! DEFINITION. Several blocks side by side (60_exceptions.md R72): any number of instances that share no state. Each is a
`State` with its own stream of free values; a step of the system is a step of one of them, in any order. -/

namespace Sys2Proof.Machine

/-- The instances of a system. -/
abbrev System := List State

/-- `n` instances at power-up. They need no identifier and no start-up order (R72). -/
def System.powerUp (n : Nat) : System := (List.range n).map State.powerUp

/-- The outcome of a step of a system. -/
abbrev SystemResult := Host.Outcome System Fault Refusal

/-- Instance `k` takes a step. -/
def System.stepAt (sys : System) (k : Nat) : SystemResult :=
  match sys[k]? with
  | none => .refused (.noSuchInstance k)
  | some s =>
    match step s with
    | .next t => .next (sys.set k t)
    | .fault r => .fault r
    | .refused r => .refused r

/-- Two steps of a system, one after the other. -/
def System.stepTwo (sys : System) (j k : Nat) : SystemResult :=
  match sys.stepAt j with
  | .next sys' => sys'.stepAt k
  | .fault r => .fault r
  | .refused r => .refused r

end Sys2Proof.Machine
end

