-- ==== Sys2Proof/Machine/Timing.lean ====
section
/-! DEFINITION. Settling in time (70_reset_and_hazards.md R79 to R81). The machine has no notion of time (R85); this file
says what its `settled` abstracts from: a block in time is a run of input levels and a run of lane outputs, with the
settling time T_PD as an argument of which nothing is assumed but that it is no negative time (00_scope.md R8). Time is a
rational number, from any origin. -/

namespace Sys2Proof.Machine.Timing

/-- A run of levels on `value_in`: its level at each time. -/
abbrev InputRun := ℚ → PortLevel

/-- A run of the three lane outputs: their levels at each time. -/
abbrev OutputRun := ℚ → Lanes

/-- The input holds the defined value `v` from `a` to `b` (R75, R81). -/
def Holds (input : InputRun) (v : Byte) (a b : ℚ) : Prop := ∀ u, a ≤ u → u ≤ b → input u = .driven v

/-- At time `t` the block has settled on `v`: the input has held it for T_PD (R77, R79). -/
def SettledOn (tpd : ℚ) (input : InputRun) (v : Byte) (t : ℚ) : Prop := Holds input v (t - tpd) t

/-- An output run is one the block may show: whenever it has settled on a value the outputs are the lanes of that
value's expanded word (R57, R79), and at every other time they may be anything (R77, R79, R80). -/
def Shows (tpd : ℚ) (input : InputRun) (output : OutputRun) : Prop :=
  ∀ t v, SettledOn tpd input v t → output t = decomposeWord (spreadWord v)

end Sys2Proof.Machine.Timing
end

