-- ==== Sys2Proof/Safety.lean ====
section
/-! DEFINITION. What a safe run is, in the terms the claims use. -/

namespace Sys2Proof.Machine

/-- The nets and the lane outputs carry what the value `v` gives them (40_spread.md R44 to R48, 41_decompose.md R57). -/
structure State.Carries (s : State) (v : Byte) : Prop where
  input : s.valueIn = .driven v
  v1 : s.nets.v1 = stage1 v
  v2 : s.nets.v2 = stage2 (stage1 v)
  v3 : s.nets.v3 = stage3 (stage2 (stage1 v))
  expanded : s.nets.expanded = spreadWord v
  lanes : s.lanes = decomposeWord (spreadWord v)

/-- In status `settled` the ports and nets carry the evaluation of the present input (70_reset_and_hazards.md R79). -/
def State.SettledCarries (s : State) : Prop := s.status = .settled → ∃ v, s.Carries v

/-- The invariant of the machine: a settled block carries the evaluation of its input, and the host's variables are in
canonical form. -/
structure State.Inv (s : State) : Prop where
  settled : s.SettledCarries
  vars : s.host.vars.wf

/-- The launch premise (60_exceptions.md R75, 70_reset_and_hazards.md R78): `value_in` is driven to a defined byte. -/
def State.Launched (s : State) : Prop := ∃ v, s.valueIn = .driven v

/-- The transitions of 70_reset_and_hazards.md R85, by the block or by a line of the host, in ANY order, with `settle` enabled in
every state whose input is driven; beside them the draw of a free value, which is the model's own and no transition of R85 (log
entry 3). -/
inductive Moves (s : State) : State → Prop where
  /-- The block settles (in status `settled` it drives again what it drives). -/
  | block (t : State) : settle s = .next t → Moves s t
  /-- The host takes the line it is at. -/
  | host (l : HostLine) (t : State) : s.host.current = some l → hostStep l s = .next t → Moves s t
  /-- A free value is drawn: the model's own counter, and nothing of the block or the host (log entry 3). -/
  | draw : Moves s s.drawn

/-- `t` can be reached from `s` by some moves, in any order. -/
inductive Reaches (s : State) : State → Prop where
  | here : Reaches s s
  | further (t u : State) : Reaches s t → Moves t u → Reaches s u

/-- The host's present line ends in an outcome of which `P` holds: in this step, or, when the block settles first, in the
next one. -/
def State.LineEnds (s : State) (P : Host.Outcome State Fault Refusal → Prop) : Prop :=
  P (step s) ∨ ∃ u, step s = .next u ∧ u.host = s.host ∧ u.toBlock = s.toBlock.settle ∧ P (step u)

end Sys2Proof.Machine
end

