-- ==== Sys2Proof/Certificates/Slice0/Obligations.lean ====
section
/-! DEFINITION. The statements for the provers. Each docstring names the rules of spec/ it comes from. Where a rule's own
text marks a clause as derived, the statement has basis 'derived'. -/

open Sys2Proof Sys2Proof.Machine

/-! ### The stages -/

/-- R44, its postcondition marked "[derived: from the pseudocode]". STG1 completes whenever `value_in` is driven, drives
`v1` and nothing else, and `v1` is the masked exact product: the low nibble at 3:0, the high nibble at 15:12. -/
def Obligations.Stg1KeepsTwoNibbles : Prop :=
  ∀ (s : State) (v : Byte), s.valueIn = .driven v →
    ∃ x : NetV1, exec .stg1 s = .next { s with nets := { s.nets with v1 := x } } ∧
      x.toNat = (v.toNat * 0x101) &&& 0x0F00F ∧
      x.extractLsb' 0 4 = v.extractLsb' 0 4 ∧ x.extractLsb' 12 4 = v.extractLsb' 4 4 ∧ x.extractLsb' 4 8 = 0 ∧
      v.toNat * 0x101 = (v ++ v).toNat ∧ v.toNat * 0x101 ≤ 0xFFFF ∧ (v = 0xFF → v.toNat * 0x101 = 0xFFFF) ∧
      (v = 0x00 → x = 0x0000) ∧ (v = 0xFF → x = 0xF00F) ∧ (v = 0xA5 → v.toNat * 0x101 = 0xA5A5 ∧ x = 0xA005)

/-- R45, its postcondition marked "[derived: from the pseudocode and rule R44]". STG2 completes on every `v1`, drives `v2`
and nothing else, with the masked exact product; on what STG1 drives for `v` it keeps the four bit pairs of `v`; on every
`v1` that meets STG1's mask the product is the OR of two shifted copies. -/
def Obligations.Stg2KeepsFourPairs : Prop :=
  ∀ s : State, ∃ x : NetV2, exec .stg2 s = .next { s with nets := { s.nets with v2 := x } } ∧
    x.toNat = (s.nets.v1.toNat * 0x11) &&& 0x0C30C3 ∧
    (∀ v : Byte, s.nets.v1.toNat = (v.toNat * 0x101) &&& 0x0F00F →
      x.extractLsb' 0 2 = v.extractLsb' 0 2 ∧ x.extractLsb' 6 2 = v.extractLsb' 2 2 ∧
      x.extractLsb' 12 2 = v.extractLsb' 4 2 ∧ x.extractLsb' 18 2 = v.extractLsb' 6 2 ∧
      ∀ j, j ∉ [0, 1, 6, 7, 12, 13, 18, 19] → x.getLsbD j = false) ∧
    (s.nets.v1 &&& 0xF00F = s.nets.v1 →
      s.nets.v1.toNat &&& (s.nets.v1.toNat <<< 4) = 0 ∧
      s.nets.v1.toNat * 0x11 = s.nets.v1.toNat ||| (s.nets.v1.toNat <<< 4) ∧ s.nets.v1.toNat * 0x11 ≤ 0xFF0FF) ∧
    (s.nets.v1 = 0 → x = 0) ∧ (s.nets.v1 = 0xF00F → s.nets.v1.toNat * 0x11 = 0xFF0FF ∧ x = 0x0C30C3) ∧
    (s.nets.v1 = 0xA005 → s.nets.v1.toNat * 0x11 = 0xAA055 ∧ x = 0x82041)

/-- R46, whole. STG3 completes on every `v2`, drives `v3` and nothing else, with the masked exact product; on what STG1 and
STG2 drive for `v`, bit i of `v` resides alone at position 3i; on every `v2` that meets STG2's mask the multiply has no
carry. -/
def Obligations.Stg3IsolatesEachBit : Prop :=
  Instr.stg3.row = ⟨"STG3", .internalStage, 0, 0⟩ ∧
  ∀ s : State, ∃ x : NetV3, exec .stg3 s = .next { s with nets := { s.nets with v3 := x } } ∧
    x.toNat = (s.nets.v2.toNat * 5) &&& 0x249249 ∧
    (∀ v : Byte, s.nets.v2.toNat = (((v.toNat * 0x101) &&& 0x0F00F) * 0x11) &&& 0x0C30C3 →
      (∀ i < 8, x.getLsbD (3 * i) = v.getLsbD i) ∧ (∀ j, j % 3 ≠ 0 → x.getLsbD j = false)) ∧
    (s.nets.v2 &&& 0x0C30C3 = s.nets.v2 →
      s.nets.v2.toNat &&& (s.nets.v2.toNat <<< 2) = 0 ∧
      s.nets.v2.toNat * 5 = s.nets.v2.toNat ||| (s.nets.v2.toNat <<< 2) ∧ s.nets.v2.toNat * 5 ≤ 0x3CF3CF) ∧
    (x.zeroExtend 24).getLsbD 22 = false ∧ (x.zeroExtend 24).getLsbD 23 = false ∧
    (s.nets.v2 = 0x82041 → s.nets.v2.toNat * 5 = 0x28A145 ∧ x = 0x208041)

/-- R47, whole. STG4 completes on every `v3`, drives `expanded` and nothing else; on every `v3` whose product is a 24-bit
number it is that product, with no mask; on every `v3` that meets STG3's mask the product is one and is the OR of three
shifted copies; on what the stages before drive for `v`, each bit becomes a run of three. (Where the product is no 24-bit
number the rule states no result, and this statement says only that STG4 completes: log entry 5.) -/
def Obligations.Stg4ReplicatesEachBit : Prop :=
  Instr.stg4.row = ⟨"STG4", .internalStage, 0, 0⟩ ∧
  ∀ s : State, ∃ x : Expanded, exec .stg4 s = .next { s with nets := { s.nets with expanded := x } } ∧
    (s.nets.v3.toNat * 7 < 2 ^ 24 → x.toNat = s.nets.v3.toNat * 7) ∧
    (s.nets.v3 &&& 0x249249 = s.nets.v3 →
      x.toNat = s.nets.v3.toNat * 7 ∧
      s.nets.v3.toNat * 7 = s.nets.v3.toNat ||| (s.nets.v3.toNat <<< 1) ||| (s.nets.v3.toNat <<< 2) ∧
      s.nets.v3.toNat * 7 ≤ 0xFFFFFF) ∧
    (∀ v : Byte,
      s.nets.v3.toNat = (((((v.toNat * 0x101) &&& 0x0F00F) * 0x11) &&& 0x0C30C3) * 5) &&& 0x249249 →
      ∀ i < 8, x.extractLsb' (3 * i) 3 = (BitVec.ofBool (v.getLsbD i)).replicate 3) ∧
    (s.nets.v3 = 0x249249 → x = 0xFFFFFF) ∧ (s.nets.v3 = 0x208041 → x = 0xE381C7)

/-! ### SPREAD -/

/-- R48, whole. SPREAD completes whenever `value_in` is driven; it drives the four nets as the pseudocode says and
nothing else, and gives exactly what its four stages in series give. -/
def Obligations.SpreadIsTheFourStagesInSeries : Prop :=
  Instr.spread.row = ⟨"SPREAD", .combAlways, 0, 0⟩ ∧
  ∀ (s : State) (v : Byte), s.valueIn = .driven v →
    ∃ n : Nets, exec .spread s = .next { s with nets := n } ∧
      runOps [.stg1, .stg2, .stg3, .stg4] s = .next { s with nets := n } ∧
      n.v1.toNat = (v.toNat * 0x101) &&& 0x0F00F ∧ n.v2.toNat = (n.v1.toNat * 0x11) &&& 0x0C30C3 ∧
      n.v3.toNat = (n.v2.toNat * 5) &&& 0x249249 ∧ n.expanded.toNat = n.v3.toNat * 7 ∧
      (v = 0x00 → n.expanded = 0x000000) ∧ (v = 0xFF → n.expanded = 0xFFFFFF) ∧ (v = 0xA5 → n.expanded = 0xE381C7)

/-- R49, whole: the bit-run law, for the net `expanded` that SPREAD drives. -/
def Obligations.SpreadFillsBitRuns : Prop :=
  ∀ (s : State) (v : Byte), s.valueIn = .driven v →
    ∃ t, exec .spread s = .next t ∧
      (∀ j < 24, t.nets.expanded.getLsbD j = v.getLsbD (j / 3)) ∧
      (∀ i < 8, t.nets.expanded.getLsbD (3 * i) = v.getLsbD i ∧ t.nets.expanded.getLsbD (3 * i + 1) = v.getLsbD i ∧
        t.nets.expanded.getLsbD (3 * i + 2) = v.getLsbD i) ∧
      ∀ j, 24 ≤ j → t.nets.expanded.toNat.testBit j = false

/-- R54, whole: the boundary values. -/
def Obligations.SpreadBoundaryValues : Prop :=
  ∀ s : State,
    (s.valueIn = .driven 0 → ∃ t, exec .spread s = .next t ∧ t.nets.expanded = 0) ∧
    (s.valueIn = .driven 255 → ∃ t, exec .spread s = .next t ∧ t.nets.expanded = 0xFFFFFF)

/-- R50, marked "[derived: from rules R44 to R47]": on every net value that meets the mask of the stage before, no stage
wraps: computed modulo 2^W for any W of at least 24, every stage drives the same net; and each maximum is the table's. -/
def Obligations.NoStageWraps : Prop :=
  (∀ (v : Byte) (w : Nat), 24 ≤ w →
    (stage1 v).toNat = ((v.toNat * 0x101) % 2 ^ w) &&& 0x0F00F ∧ v.toNat * 0x101 ≤ 0xFFFF) ∧
  (∀ (x : NetV1) (w : Nat), 24 ≤ w → x &&& 0xF00F = x →
    (stage2 x).toNat = ((x.toNat * 0x11) % 2 ^ w) &&& 0x0C30C3 ∧ x.toNat * 0x11 ≤ 0xFF0FF) ∧
  (∀ (x : NetV2) (w : Nat), 24 ≤ w → x &&& 0x0C30C3 = x →
    (stage3 x).toNat = ((x.toNat * 5) % 2 ^ w) &&& 0x249249 ∧ x.toNat * 5 ≤ 0x3CF3CF) ∧
  (∀ (x : NetV3) (w : Nat), 24 ≤ w → x &&& 0x249249 = x →
    (stage4 x).toNat = (x.toNat * 7) % 2 ^ w ∧ x.toNat * 7 ≤ 0xFFFFFF) ∧
  (0xFF : Byte).toNat * 0x101 = 0xFFFF ∧ (stage1 0xFF).toNat * 0x11 = 0xFF0FF ∧
  (stage2 (stage1 0xFF)).toNat * 5 = 0x3CF3CF ∧ (stage3 (stage2 (stage1 0xFF))).toNat * 7 = 0xFFFFFF

/-- R51, marked "[derived: from rules R44 to R47]": the multiplier stages equal the shift-and-OR stages on every net value
that meets the mask of the stage before, and SPREAD equals the pure wiring `expanded[j] = value_in[j div 3]`. -/
def Obligations.MultipliersEqualShiftAndOr : Prop :=
  (∀ v : Byte, stage1 v = (v.zeroExtend 16 ||| (v.zeroExtend 16 <<< 8)) &&& 0xF00F) ∧
  (∀ x : NetV1, x &&& 0xF00F = x → stage2 x = (x.zeroExtend 20 ||| (x.zeroExtend 20 <<< 4)) &&& 0x0C30C3) ∧
  (∀ x : NetV2, x &&& 0x0C30C3 = x → stage3 x = (x.zeroExtend 22 ||| (x.zeroExtend 22 <<< 2)) &&& 0x249249) ∧
  (∀ x : NetV3, x &&& 0x249249 = x →
    stage4 x = x.zeroExtend 24 ||| (x.zeroExtend 24 <<< 1) ||| (x.zeroExtend 24 <<< 2)) ∧
  (∀ (s : State) (v : Byte), s.valueIn = .driven v → ∃ t, exec .spread s = .next t ∧
    t.nets.expanded = BitVec.ofFnLE (fun j : Fin 24 => v.getLsbD (j.val / 3)))

/-- R52: SPREAD is a function of its input alone: whatever else two states hold, the same input gives the same expanded
word; it moves nothing but the nets; and repeating it changes nothing. -/
def Obligations.SpreadIsDeterministic : Prop :=
  ∀ (s s' : State) (v : Byte), s.valueIn = .driven v → s'.valueIn = .driven v →
    ∃ t t', exec .spread s = .next t ∧ exec .spread s' = .next t' ∧ t.nets.expanded = t'.nets.expanded ∧
      t = { s with nets := t.nets } ∧ exec .spread t = .next t

/-- R55, marked "[derived: from rule R49]": SPREAD is injective, any bit of a run gives the input bit back, and the words it
can drive are exactly those in which every run is 000 or 111. -/
def Obligations.SpreadIsReversible : Prop :=
  (∀ (s s' t t' : State), exec .spread s = .next t → exec .spread s' = .next t' →
    t.nets.expanded = t'.nets.expanded → s.valueIn = s'.valueIn) ∧
  (∀ (s t : State) (v : Byte), s.valueIn = .driven v → exec .spread s = .next t → ∀ i < 8, ∀ k < 3,
    v.getLsbD i = t.nets.expanded.getLsbD (3 * i + k)) ∧
  (∀ e : Expanded, (∃ s t, exec .spread s = .next t ∧ t.nets.expanded = e) ↔
    ∀ i < 8, e.extractLsb' (3 * i) 3 = 0b000 ∨ e.extractLsb' (3 * i) 3 = 0b111)

/-- From 95_test_vectors.md P5, "follows bit by bit [derived: from 40_spread.md rule R49]": SPREAD distributes over bitwise
OR and AND. -/
def Obligations.SpreadDistributesOverOrAndAnd : Prop :=
  ∀ (s : State) (v w : Byte) (a b o n : State),
    exec .spread { s with valueIn := .driven v } = .next a → exec .spread { s with valueIn := .driven w } = .next b →
    exec .spread { s with valueIn := .driven (v ||| w) } = .next o →
    exec .spread { s with valueIn := .driven (v &&& w) } = .next n →
    o.nets.expanded = a.nets.expanded ||| b.nets.expanded ∧ n.nets.expanded = a.nets.expanded &&& b.nets.expanded

/-! ### DECOMPOSE and the lanes -/

/-- R56, whole. DECOMPOSE completes on all 2^24 words; it drives the three lane outputs, least-significant lane first, and
nothing else. -/
def Obligations.DecomposeSlicesTheWord : Prop :=
  Instr.decompose.row = ⟨"DECOMPOSE", .combAlways, 0, 0⟩ ∧
  ∀ s : State, ∃ a b c : Byte, exec .decompose s = .next { s with lanes := ⟨a, b, c⟩ } ∧
    a.toNat = s.nets.expanded.toNat &&& 0xFF ∧ b.toNat = (s.nets.expanded.toNat >>> 8) &&& 0xFF ∧
    c.toNat = (s.nets.expanded.toNat >>> 16) &&& 0xFF ∧ c.toNat = s.nets.expanded.toNat >>> 16 ∧
    a = s.nets.expanded.extractLsb' 0 8 ∧ b = s.nets.expanded.extractLsb' 8 8 ∧ c = s.nets.expanded.extractLsb' 16 8 ∧
    (s.nets.expanded = 0 → a = 0 ∧ b = 0 ∧ c = 0) ∧
    (s.nets.expanded = 0xFFFFFF → a = 0xFF ∧ b = 0xFF ∧ c = 0xFF) ∧
    (s.nets.expanded = 0xE381C7 → a = 0xC7 ∧ b = 0x81 ∧ c = 0xE3)

/-- Derived from 41_decompose.md (R57) and 70_reset_and_hazards.md (R85): a block that settles with `value_in` driven drives
its lane outputs with DECOMPOSE(SPREAD(value_in)), that is, with what SPREAD and then DECOMPOSE give. That the status becomes
settled is R85; that nothing but the nets, the lanes and the status moves is the model's way of holding the wires' levels, its
choice of log entry 2. -/
def Obligations.LanesAreDecomposeOfSpread : Prop :=
  ∀ (s : State) (v : Byte), s.valueIn = .driven v →
    ∃ a b, exec .spread s = .next a ∧ exec .decompose a = .next b ∧
      settle s = .next { s with status := .settled, nets := a.nets, lanes := b.lanes } ∧
      (v = 0xA5 → b.lanes = ⟨0xC7, 0x81, 0xE3⟩)

/-- R59, marked "[derived: from rule R57 and 40_spread.md rule R49]", and the table of R39: each lane of a settled block bit
by bit, bit 7 first; how many of the 256 inputs share each lane value; how many lane values occur. -/
def Obligations.LaneClosedForms : Prop :=
  (∀ (s : State) (v : Byte), s.valueIn = .driven v → ∃ t, settle s = .next t ∧
    [7, 6, 5, 4, 3, 2, 1, 0].map t.lanes.lane0.getLsbD = [2, 2, 1, 1, 1, 0, 0, 0].map v.getLsbD ∧
    [7, 6, 5, 4, 3, 2, 1, 0].map t.lanes.lane1.getLsbD = [5, 4, 4, 4, 3, 3, 3, 2].map v.getLsbD ∧
    [7, 6, 5, 4, 3, 2, 1, 0].map t.lanes.lane2.getLsbD = [7, 7, 7, 6, 6, 6, 5, 5].map v.getLsbD) ∧
  (let lanesOf := fun n : Nat => decomposeWord (spreadWord (BitVec.ofNat 8 n))
   let all0 := (List.range 256).map fun n => (lanesOf n).lane0
   let all1 := (List.range 256).map fun n => (lanesOf n).lane1
   let all2 := (List.range 256).map fun n => (lanesOf n).lane2
   all0.dedup.length = 8 ∧ all1.dedup.length = 16 ∧ all2.dedup.length = 8 ∧
   (∀ x ∈ all0.dedup, all0.count x = 32) ∧ (∀ x ∈ all1.dedup, all1.count x = 16) ∧
   ∀ x ∈ all2.dedup, all2.count x = 32)

/-- R60, whole: the lanes of a settled block are the three slices of the expanded word, so together they are the word; and
they are the only way to observe it: what a sample reads does not depend on the nets. -/
def Obligations.LanesGiveTheExpandedWordBack : Prop :=
  (∀ (s : State) (n : Nets), ({ s with nets := n } : State).sampled = s.sampled) ∧
  ∀ (s : State) (v : Byte), s.valueIn = .driven v →
    ∃ t u, settle s = .next t ∧ exec .spread s = .next u ∧
      t.lanes.lane2 ++ t.lanes.lane1 ++ t.lanes.lane0 = u.nets.expanded ∧
      (∀ j < 8, t.lanes.lane0.getLsbD j = u.nets.expanded.getLsbD j ∧
        t.lanes.lane1.getLsbD j = u.nets.expanded.getLsbD (j + 8) ∧
        t.lanes.lane2.getLsbD j = u.nets.expanded.getLsbD (j + 16))

/-- R26 and R27 (R27 marked "[derived: from rule R26 and 41_decompose.md rule R56]"): the byte order of the expanded word is
fixed: in every settled state that meets the invariant the lanes are its three bytes, the least significant in lane 0. -/
def Obligations.LaneByteOrder : Prop :=
  ∀ s : State, s.Inv → s.status = .settled →
    s.nets.expanded.toNat = s.lanes.lane0.toNat + 0x100 * s.lanes.lane1.toNat + 0x10000 * s.lanes.lane2.toNat ∧
    s.lanes.lane0 = s.nets.expanded.extractLsb' 0 8 ∧ s.lanes.lane1 = s.nets.expanded.extractLsb' 8 8 ∧
    s.lanes.lane2 = s.nets.expanded.extractLsb' 16 8

/-- From 95_test_vectors.md P2, "[derived: from 41_decompose.md rule R59]": 0x00 and 0xFF are the only inputs whose lane 0 is
the input itself, and lane 0 fed back twice gives one of them. -/
def Obligations.LaneZeroFixedPoints : Prop :=
  ∀ (s t u : State) (v : Byte), s.valueIn = .driven v → settle s = .next t → settle (t.driveInput t.lanes.lane0) = .next u →
    (t.lanes.lane0 = v ↔ v = 0x00 ∨ v = 0xFF) ∧ (u.lanes.lane0 = 0x00 ∨ u.lanes.lane0 = 0xFF)

/-! ### The operations on every state -/

/-- Derived from 10_state.md and 40_spread.md, 41_decompose.md ("Operands"): no operation moves the input, the status, the
model's counters or the host; only DECOMPOSE moves a lane output, and it moves no net. -/
def Obligations.OperationsLeaveTheRestAlone : Prop :=
  ∀ (i : Instr) (s t : State), exec i s = .next t →
    t.valueIn = s.valueIn ∧ t.status = s.status ∧ t.draws = s.draws ∧ t.stream = s.stream ∧ t.host = s.host ∧
    (i ≠ .decompose → t.lanes = s.lanes) ∧ (i = .decompose → t.nets = s.nets)

/-- R63: with any of the 256 inputs on the port every operation and every evaluation completes, and no step of the machine
ends in a fault. -/
def Obligations.NoOperationEverFaults : Prop :=
  (∀ (i : Instr) (s : State) (v : Byte), s.valueIn = .driven v → ∃ t, exec i s = .next t) ∧
  (∀ (s : State) (v : Byte), s.valueIn = .driven v → ∃ t, settle s = .next t) ∧
  ∀ (s : State) (r : Fault), step s ≠ .fault r

/-- Derived from 60_exceptions.md (R75, "It refuses a launch that lacks the premise"): with no defined value on the port, the
operations that read it and every evaluation are refused by that name, as is, in every state, a host line that would leave
it undefined; the operations that read only nets complete. -/
def Obligations.UndefinedInputIsRefused : Prop :=
  ∀ s : State, (s.valueIn = .undriven →
      exec .stg1 s = .refused .undefinedInput ∧ exec .spread s = .refused .undefinedInput ∧
      settle s = .refused .undefinedInput ∧
      (s.host.current = none ∨ s.host.current = some .wait → step s = .refused .undefinedInput) ∧
      ∀ i ∈ [Instr.stg2, .stg3, .stg4, .decompose], ∃ t, exec i s = .next t) ∧
    hostStep .applyUndefined s = .refused .undefinedInput ∧
    (s.host.current = some .applyUndefined → s.LineEnds fun o => o = .refused .undefinedInput)

/-- Derived from 20_memory.md (R29, "Every evaluation is idempotent") and 00_scope.md (R12, continuous drive): in a settled
state that meets the invariant every operation of the map leaves the state exactly as it is, and so does settling. -/
def Obligations.SettledStateIsAFixedPoint : Prop :=
  ∀ s : State, s.Inv → s.status = .settled → (∀ i : Instr, exec i s = .next s) ∧ settle s = .next s

/-- Derived from 30_encoding.md (R36) and 70_reset_and_hazards.md (R84): performing an evaluation's operations stage by stage
gives, in every state, the same outcome as performing them whole. -/
def Obligations.StagesGiveTheSameEvaluation : Prop :=
  ∀ (e : Evaluation) (s : State), e.wf = true → runOps (e.ops.flatMap Instr.stages) s = runOps e.ops s

/-! ### Decoding and the step -/

/-- A few words written out bit by bit (30_encoding.md R37, R43): what each decodes to. -/
def Obligations.WordsDecodeAsWritten : Prop :=
  decode [0b00000000#8] = .ok (⟨0x00, [.spread, .decompose]⟩, []) ∧
  decode [0b10100101#8] = .ok (⟨0xA5, [.spread, .decompose]⟩, []) ∧
  decode [0b11111111#8, 0b00111100#8] = .ok (⟨0xFF, [.spread, .decompose]⟩, [0b00111100#8]) ∧
  decode [] = .error .noInputWord

/-- Derived from 30_encoding.md (R36, R37, R41, R42): decoding and encoding agree. Every well-formed evaluation comes back
from its word, whatever follows it; every 8-bit word decodes to a well-formed evaluation that encodes to it; the word that
is written for any operation decodes to an evaluation that performs it on the same value; and a table word has an operation
exactly when it can be driven onto the 8-bit port. -/
def Obligations.DecodeAndEncodeAgree : Prop :=
  (∀ (e : Evaluation) (rest : List Byte), e.wf = true → decode (e.encode ++ rest) = .ok (e, rest)) ∧
  (∀ (ws rest : List Byte) (e : Evaluation), decode ws = .ok (e, rest) → e.wf = true ∧ e.encode ++ rest = ws) ∧
  (∀ (i : Instr) (v : Byte), ∃ e, decode (i.encode v) = .ok (e, []) ∧ e.value = v ∧ e.performs i = true) ∧
  (∀ nbits w, (decodeTableWord nbits w).isSome = true ↔ w < 256)

/-- Derived from 30_encoding.md (R36) and 70_reset_and_hazards.md (R85): A STEP RUNS WHAT IS DECODED. With the host at no
line, when the word on the port decodes to an evaluation, the step performs its operations in order and marks the block
settled; these are SPREAD and then DECOMPOSE, and both complete. Log entry 7: the block settles when the host has no line. -/
def Obligations.StepRunsTheDecodedEvaluation : Prop :=
  ∀ (s : State) (e : Evaluation) (rest : List Byte), s.host.current = none →
    decode s.valueIn.words = .ok (e, rest) →
    step s = Result.andThen (runOps e.ops s) (fun t => .next { t with status := .settled }) ∧
    e.ops = [.spread, .decompose] ∧
    ∃ a b, exec .spread s = .next a ∧ exec .decompose a = .next b ∧ step s = .next { b with status := .settled }

/-- Derived from 30_encoding.md (R36, R43; log entries 6 and 7): the word placed for the next step is the one it evaluates,
from any state whatever, and it reaches the lanes. -/
def Obligations.FetchedWordIsEvaluatedNext : Prop :=
  ∀ (s : State) (nbits w : Nat), w < 256 → ∃ t, step (s.withFetchWord nbits w) = .next t ∧
    t.valueIn = .driven (BitVec.ofNat 8 w) ∧ t.status = .settled ∧ t.host.vars = s.host.vars ∧
    (∀ j < 8, t.lanes.lane0.getLsbD j = w.testBit (j / 3) ∧ t.lanes.lane1.getLsbD j = w.testBit ((j + 8) / 3) ∧
      t.lanes.lane2.getLsbD j = w.testBit ((j + 16) / 3))

/-- Derived from 60_exceptions.md and 30_encoding.md (R43, R64, R75; log entry 8): a step stops only by a refusal, and only on
one of these grounds, each in the host's hands. -/
def Obligations.StepRefusesOnlyOnTheseGrounds : Prop :=
  ∀ (s : State) (r : Refusal), step s = .refused r →
    (r = .undefinedInput ∧
      (s.host.current = some .applyUndefined ∨
        s.valueIn = .undriven ∧ (s.host.current = none ∨ s.host.current = some .wait))) ∨
    (r = .invalidInputRange ∧
      ((∃ r0 r1 r2, s.host.current = some (.call .notInteger r0 r1 r2)) ∨
        (∃ n r0 r1 r2, s.host.current = some (.call (.integer n) r0 r1 r2) ∧ (n < 0 ∨ 255 < n)) ∨
        ∃ e n, s.host.current = some (.apply e) ∧ e.eval s.host.vars = .ok n ∧ 255 < n)) ∨
    ∃ q e, r = .unsetHostVariable q ∧ e.eval s.host.vars = .error q ∧
      (s.host.current = some (.apply e) ∨ (∃ x, s.host.current = some (.set x e)) ∨
        ∃ k, s.host.current = some (.ifGoto e k))

/-! ### The host's actions -/

/-- Derived from 70_reset_and_hazards.md (R81, R85) and 30_encoding.md (R43): APPLY of a byte completes from any state,
whatever the status; the input is the new value, a new settling window starts, and the host's variables and program stay. The
block may settle on its old input first (R85), which changes none of this. -/
def Obligations.ApplyStartsASettlingWindow : Prop :=
  ∀ (s : State) (e : HostExpr) (v : Byte), e.eval s.host.vars = .ok v.toNat →
    (∃ t, hostStep (.apply e) s = .next t ∧ t.toBlock = ⟨.driven v, .settling⟩ ∧ t.stream = s.stream ∧
      t.host = { s.host with line := s.host.line + 1 }) ∧
    (s.host.current = some (.apply e) → s.LineEnds fun o =>
      ∃ t, o = .next t ∧ t.valueIn = .driven v ∧ t.status = .settling ∧ t.stream = s.stream ∧
        t.host = { s.host with line := s.host.line + 1 })

/-- Derived from 70_reset_and_hazards.md (R79, R85) and 30_encoding.md (R43): WAIT with the input driven completes from any
state; the block is settled on that input and its lanes carry the bit runs; the input and the variables stay. -/
def Obligations.WaitSettlesTheBlock : Prop :=
  ∀ (s : State) (v : Byte), s.host.current = some .wait → s.valueIn = .driven v →
    ∃ t, step s = .next t ∧ t.valueIn = .driven v ∧ t.status = .settled ∧ t.draws = s.draws ∧ t.stream = s.stream ∧
      t.host = { s.host with line := s.host.line + 1 } ∧
      (∀ j < 8, t.lanes.lane0.getLsbD j = v.getLsbD (j / 3) ∧ t.lanes.lane1.getLsbD j = v.getLsbD ((j + 8) / 3) ∧
        t.lanes.lane2.getLsbD j = v.getLsbD ((j + 16) / 3))

/-- Derived from 70_reset_and_hazards.md (R85), 10_state.md (R13, R22) and 20_memory.md (R29); that a variable named twice keeps
the later lane is the model's choice, log entry 8. In EVERY state with status `settled` on the input v, a SAMPLE gives the host
DECOMPOSE(SPREAD(v)), a function of the input whatever the levels that State holds, and changes nothing of the block; and in
every state that meets the invariant the three lane ports carry exactly that. -/
def Obligations.SettledSampleReadsTheLanes : Prop :=
  ∀ (s : State) (v : Byte) (r0 r1 r2 : HostVar), s.status = .settled → s.valueIn = .driven v →
    s.host.current = some (.sample r0 r1 r2) →
    ∃ t, step s = .next t ∧ t = { s with host := t.host } ∧ t.host.line = s.host.line + 1 ∧
      t.host.program = s.host.program ∧
      (∃ a b c : Byte,
        (c ++ b ++ a).toNat = ((((((v.toNat * 0x101) &&& 0x0F00F) * 0x11) &&& 0x0C30C3) * 5) &&& 0x249249) * 7 ∧
        (∀ q, t.host.vars.get q = if q = r2 then some c.toNat else if q = r1 then some b.toNat
          else if q = r0 then some a.toNat else s.host.vars.get q) ∧
        (s.Inv → s.lanes = ⟨a, b, c⟩))

/-- Derived from 70_reset_and_hazards.md (R77, R80, R85) and 20_memory.md (R29). A SAMPLE in status `settling` gives the host the
unconstrained draw of this moment, whatever that is, and a later one a fresh draw; no port, net or status changes. The model's
choices here: the counter behind the draws (log entry 3); that a SAMPLE of a port that was never driven is such a draw too and
is not refused (log entry 4, where R75 and U6 would allow a refusal); that a variable named twice keeps the later lane (log
entry 8). With the port undriven the step is this line; driven, the block may settle first (log entry 7). -/
def Obligations.SettlingSampleIsADraw : Prop :=
  ∀ (s : State) (r0 r1 r2 : HostVar), s.status = .settling →
    ∃ t, hostStep (.sample r0 r1 r2) s = .next t ∧ t = { s with draws := s.draws + 1, host := t.host } ∧
      t.host.line = s.host.line + 1 ∧ t.host.program = s.host.program ∧
      (∀ q, t.host.vars.get q = if q = r2 then some (Config.freeLane s.stream s.draws 2).toNat
        else if q = r1 then some (Config.freeLane s.stream s.draws 1).toNat
        else if q = r0 then some (Config.freeLane s.stream s.draws 0).toNat else s.host.vars.get q) ∧
      (s.host.current = some (.sample r0 r1 r2) → s.valueIn = .undriven → step s = .next t)

/-- Derived from 30_encoding.md (R36, R37, R43), 41_decompose.md (R57, R59), 10_state.md (R22). From every state whatever, a CALL of
any integer in [0,255] completes and gives the host the three lanes of that value, bit by bit; no other variable changes. That
a CALL names three variables, and that one named twice keeps the later lane, is the model's choice, log entry 8. The block may
settle on its old input first (R85), which changes none of this. -/
def Obligations.CallReturnsTheLanesFromEveryState : Prop :=
  ∀ (s : State) (v : Byte) (r0 r1 r2 : HostVar), s.host.current = some (.call (.integer v.toNat) r0 r1 r2) →
    s.LineEnds fun o => ∃ t, o = .next t ∧ t.valueIn = .driven v ∧ t.status = .settled ∧
      t.host.program = s.host.program ∧ t.host.line = s.host.line + 1 ∧
      ∃ a b c : Byte, t.lanes = ⟨a, b, c⟩ ∧
        (∀ j < 8, a.getLsbD j = v.getLsbD (j / 3) ∧ b.getLsbD j = v.getLsbD ((j + 8) / 3) ∧
          c.getLsbD j = v.getLsbD ((j + 16) / 3)) ∧
        ∀ q, t.host.vars.get q = if q = r2 then some c.toNat else if q = r1 then some b.toNat
          else if q = r0 then some a.toNat else s.host.vars.get q

/-- Derived from 30_encoding.md (R43, "CALL is shorthand for the three lines APPLY, WAIT, SAMPLE"): from any state they give
the same state, but that three lines move the host three lines on and a call one. -/
def Obligations.CallIsApplyWaitSample : Prop :=
  ∀ (s : State) (n : Nat) (r0 r1 r2 : HostVar), n < 256 →
    ∃ t, hostStep (.call (.integer n) r0 r1 r2) s = .next t ∧
      Result.andThen (hostStep (.apply (.lit n)) s)
        (fun a => Result.andThen (hostStep .wait a) (hostStep (.sample r0 r1 r2))) =
      .next { t with host := { t.host with line := s.host.line + 3 } }

/-- R64: a call outside [0,255], or of a non-integer, is refused in every state and never evaluated or truncated; the refusal is
the boundary's: no operation of the block raises it. -/
def Obligations.OutOfRangeCallIsRefused : Prop :=
  (∀ (s : State) (n : Int) (r0 r1 r2 : HostVar), n < 0 ∨ 255 < n →
    hostStep (.call (.integer n) r0 r1 r2) s = .refused .invalidInputRange ∧
    (s.host.current = some (.call (.integer n) r0 r1 r2) → s.LineEnds fun o => o = .refused .invalidInputRange)) ∧
  (∀ (s : State) (r0 r1 r2 : HostVar),
    hostStep (.call .notInteger r0 r1 r2) s = .refused .invalidInputRange ∧
    (s.host.current = some (.call .notInteger r0 r1 r2) → s.LineEnds fun o => o = .refused .invalidInputRange)) ∧
  ∀ (i : Instr) (s : State), exec i s ≠ .refused .invalidInputRange ∧ settle s ≠ .refused .invalidInputRange

/-- Derived from 30_encoding.md (R42) and 70_reset_and_hazards.md (R78); that an APPLY of a number above 255 is refused as an
out-of-range call is the model's choice, log entry 8 (DEDUCED). -/
def Obligations.OutOfRangeApplyIsRefused : Prop :=
  ∀ (s : State) (e : HostExpr) (n : Nat), e.eval s.host.vars = .ok n → 255 < n →
    hostStep (.apply e) s = .refused .invalidInputRange ∧
    (s.host.current = some (.apply e) → s.LineEnds fun o => o = .refused .invalidInputRange)

/-- Derived from 30_encoding.md (R43, SET and IF are "host-side steps on host variables. They are not part of the block"): in every
state they complete when their expression has a value, do what they say to the host, and change nothing of the block; the block
may settle before them (R85). That IF jumps exactly when its condition is not 0, that a label is the index of a line, and the
form of the expressions are the model's choices of log entry 8, which R43 does not state. -/
def Obligations.SetAndIfActOnTheHostAlone : Prop :=
  (∀ (s : State) (r : HostVar) (e : HostExpr) (n : Nat), e.eval s.host.vars = .ok n →
    ∃ t, hostStep (.set r e) s = .next t ∧ t = { s with host := t.host } ∧ t.host.line = s.host.line + 1 ∧
      t.host.program = s.host.program ∧
      (∀ q, t.host.vars.get q = if q = r then some n else s.host.vars.get q) ∧
      (s.host.current = some (.set r e) →
        s.LineEnds fun o => ∃ u, o = .next u ∧ u.host = t.host ∧ u.valueIn = s.valueIn)) ∧
  (∀ (s : State) (c : HostExpr) (k n : Nat), c.eval s.host.vars = .ok n →
    ∃ t, hostStep (.ifGoto c k) s = .next t ∧
      t = { s with host := { s.host with line := if n = 0 then s.host.line + 1 else k } } ∧
      (s.host.current = some (.ifGoto c k) →
        s.LineEnds fun o => ∃ u, o = .next u ∧ u.host = t.host ∧ u.valueIn = s.valueIn))

/-! ### The transitions, in any order -/

/-- Derived from 70_reset_and_hazards.md (R85, "`settle` is always enabled in status `settling`"), with the launch premise of R75: in
every settling state with a driven input, whatever line the host is at, the block can settle, as a transition of its own that
leaves the host where it is; and a step may be that one: at every line but a WAIT (which takes the settling itself) the step is
the line or the settling, as a free value says, whose counter is the model's own (log entries 3 and 7); with no host line the
step is the settling. -/
def Obligations.SettleIsEnabledWheneverSettling : Prop :=
  ∀ (s : State) (v : Byte), s.status = .settling → s.valueIn = .driven v →
    (∃ t, settle s = .next t ∧ Moves s t ∧ t.toBlock = ⟨.driven v, .settled⟩ ∧ t.host = s.host) ∧
    (s.host.current = none → step s = settle s) ∧
    ∀ l, s.host.current = some l →
      (l = .wait → step s = hostStep .wait s) ∧
      (l ≠ .wait →
        step s = if Config.settlesFirst s.stream s.draws then settle { s with draws := s.draws + 1 }
          else hostStep l { s with draws := s.draws + 1 })

/-- Derived from 70_reset_and_hazards.md (R85): where the block is settled, or its input not driven, the step at a host line is that
line; and a step that completes, from whatever state, is ONE transition: with no host line the block's settling; at a host line
that line; or, while the block settles on a driven input and the line is no WAIT, its settling or the line, after one free value
was drawn to say which. That the lines come in the program's order, when the block settles before one, and that it settles when
there is no line, are the model's choices of log entry 7; the draw is no transition of R85 but the model's own counter, log
entry 3. So every step is among the moves of `Reaches`, of which `Moves.draw` is that counter. -/
def Obligations.StepTakesOneTransition : Prop :=
  (∀ (s : State) (l : HostLine), s.host.current = some l → s.status = .settled ∨ s.valueIn = .undriven →
    step s = hostStep l s) ∧
  ∀ s t : State, step s = .next t →
    ((s.host.current = none ∧ settle s = .next t) ∨
      ∃ l, s.host.current = some l ∧
        (hostStep l s = .next t ∨
          (l ≠ .wait ∧ s.status = .settling ∧ (∃ v, s.valueIn = .driven v) ∧
            (settle { s with draws := s.draws + 1 } = .next t ∨
              hostStep l { s with draws := s.draws + 1 } = .next t)))) ∧
    Reaches s t

/-- Derived from 70_reset_and_hazards.md (R85) and 10_state.md (R13): the machine state of the block, its pair of input and status,
moves only as R85 says: it stays; or it settles on the input it has; or the host applies a byte and it is settling on that; or
a CALL has applied a byte and settled on it. It is settled on nothing else than a driven input. -/
def Obligations.BlockMovesOnlyAsR85Says : Prop :=
  ∀ s t : State, Moves s t →
    t.toBlock = s.toBlock ∨
    (∃ v, s.valueIn = .driven v ∧ t.toBlock = ⟨.driven v, .settled⟩) ∨
    (∃ e v, s.host.current = some (.apply e) ∧ e.eval s.host.vars = .ok (v : Byte).toNat ∧
      t.toBlock = ⟨.driven v, .settling⟩) ∨
    (∃ v r0 r1 r2, s.host.current = some (.call (.integer (v : Byte).toNat) r0 r1 r2) ∧
      t.toBlock = ⟨.driven v, .settled⟩)

/-- Derived from 10_state.md (R13, "holds only the input port value and the settling status"): what State holds beside the block's
machine state, the levels on the nets AND on the lane ports, is no state of the machine: with any other levels in their place
the step has the same outcome, a refusal or a next state that differs in those levels at most, with the same input, status,
samples, supply and host; and a step that settles leaves the very same state. -/
def Obligations.LevelsAreNoState : Prop :=
  ∀ (s : State) (l : Levels),
    (∀ r, step s = .refused r → step { s with toLevels := l } = .refused r) ∧
    ∀ t, step s = .next t → ∃ t', step { s with toLevels := l } = .next t' ∧ t'.toBlock = t.toBlock ∧
      t'.toSupply = t.toSupply ∧ t'.host = t.host ∧ (t.status = .settled → s.status = .settling → t' = t)

/-! ### Invariants and whole-machine rules -/

/-- The machine meets its invariant at power-up (70_reset_and_hazards.md R76, R77), whichever stream it draws from. -/
def Obligations.PowerUpMeetsTheInvariant : Prop :=
  State.reset.Inv ∧ (∀ k, (State.powerUp k).Inv) ∧ State.reset.status = .settling ∧ State.reset.valueIn = .undriven

/-- Derived from 70_reset_and_hazards.md (R79, R85): every step, and every transition of R85 in any order, keeps the invariant: a
settled block carries, on every net and lane, the evaluation of its present input, and the host's variables stay canonical. -/
def Obligations.EveryStepKeepsTheInvariant : Prop :=
  (∀ s t : State, s.Inv → step s = .next t → t.Inv) ∧ ∀ s t : State, s.Inv → Moves s t → t.Inv

/-- Derived from 70_reset_and_hazards.md (R77, R85): in every order of transitions, a block that powered up stays unsettled for as long
as its input is not driven. That an input once driven is never undriven again is the model's choice, log entry 10 (DEDUCED): R75
allows an undriven port, and the model refuses the host line that would leave it so. -/
def Obligations.NoSettlingBeforeTheFirstInput : Prop :=
  ∀ s t : State, Reaches s t →
    (s.valueIn = .undriven → s.status = .settling → t.valueIn = .undriven → t.status = .settling) ∧
    (s.Launched → t.Launched)

/-- R22: in settled states the outputs depend on the present input and on nothing else, whatever the two states' histories. -/
def Obligations.SettledOutputsDependOnTheInputAlone : Prop :=
  ∀ s s' t t' : State, s.Inv → s'.Inv → Reaches s t → Reaches s' t' → t.status = .settled → t'.status = .settled →
    t.valueIn = t'.valueIn → t.lanes = t'.lanes ∧ t.nets = t'.nets

/-- Derived from 10_state.md (R13, R19): the nets are wires and no state: change them at will before a step, and the step ends
the same, with the same input, status, lanes, counters and host. -/
def Obligations.NetsAreNotObservable : Prop :=
  ∀ (s t : State) (n : Nets), step s = .next t →
    ∃ t', step { s with nets := n } = .next t' ∧ t = { t' with nets := t.nets } ∧
      (t.status = .settled → s.status = .settling → t' = t)

/-- Derived from 60_exceptions.md (R72) and 20_memory.md (R32): instances share nothing: a step of one leaves every other one
as it was, and steps of two different ones can be taken in either order. -/
def Obligations.InstancesAreIndependent : Prop :=
  (∀ (sys sys' : System) (k j : Nat), sys.stepAt k = .next sys' → j ≠ k → sys'[j]? = sys[j]?) ∧
  (∀ (sys sys' : System) (j k : Nat), j ≠ k → sys.stepTwo j k = .next sys' → sys.stepTwo k j = .next sys')

/-! ### Settling in time -/

/-- R79, whole: from time t + T_PD on, for as long as the input stays stable, the lane outputs are those of its value, bit by
bit. Where the input changes at t, the block has settled on no value from t up to t + T_PD; and at all the times at which it
has settled on none every lane bit is unspecified: the outputs may be anything there, and change at will (R80). -/
def Obligations.SettledInTime : Prop :=
  (∀ (tpd : ℚ) (input : Timing.InputRun) (output : Timing.OutputRun) (v : Byte) (t0 t1 : ℚ), 0 ≤ tpd →
    Timing.Shows tpd input output → Timing.Holds input v t0 t1 → ∀ t, t0 + tpd ≤ t → t ≤ t1 →
    ∀ j < 8, (output t).lane0.getLsbD j = v.getLsbD (j / 3) ∧ (output t).lane1.getLsbD j = v.getLsbD ((j + 8) / 3) ∧
      (output t).lane2.getLsbD j = v.getLsbD ((j + 16) / 3)) ∧
  (∀ (tpd : ℚ) (input : Timing.InputRun) (t0 t : ℚ), (∀ a < t0, ∃ u, a < u ∧ u < t0 ∧ input u ≠ input t0) →
    t0 ≤ t → t < t0 + tpd → ∀ v, ¬ Timing.SettledOn tpd input v t) ∧
  (∀ (tpd : ℚ) (input : Timing.InputRun) (any : Timing.OutputRun), 0 ≤ tpd →
    ∃ output, Timing.Shows tpd input output ∧ ∀ t, (∀ v, ¬ Timing.SettledOn tpd input v t) → output t = any t)

/-- Derived from 70_reset_and_hazards.md (R79, R83, R85): the machine's WAIT agrees with the block in time, whatever T_PD is:
where the input has been stable for T_PD, the block shows the lanes that the machine has after APPLY and WAIT. -/
def Obligations.WaitAgreesWithTime : Prop :=
  ∀ (tpd : ℚ) (input : Timing.InputRun) (output : Timing.OutputRun) (s t u : State) (v : Byte) (at_ : ℚ), 0 ≤ tpd →
    Timing.Shows tpd input output → Timing.SettledOn tpd input v at_ →
    hostStep (.apply (.lit v.toNat)) s = .next t → hostStep .wait t = .next u → output at_ = u.lanes
end

