-- ==== Sys2Proof/Laws/Datapath.lean ====
section
/-! SUPPORT. The laws of the datapath's arithmetic: what each net holds, as a number, and the closed form of each stage
on the nets that an input can give. The quantifiers run over the 256 input values (95_test_vectors.md section 2). -/

namespace Sys2Proof.Machine

theorem stage1_toNat (v : Byte) : (stage1 v).toNat = (v.toNat * 0x101) &&& 0x0F00F := by
  have h : (v.toNat * 0x101) &&& 0x0F00F ≤ 0x0F00F := Nat.and_le_right
  simp only [stage1, mul1, mask1, BitVec.toNat_ofNat]
  omega

theorem stage2_toNat (x : NetV1) : (stage2 x).toNat = (x.toNat * 0x11) &&& 0x0C30C3 := by
  have h : (x.toNat * 0x11) &&& 0x0C30C3 ≤ 0x0C30C3 := Nat.and_le_right
  simp only [stage2, mul2, mask2, BitVec.toNat_ofNat]
  omega

theorem stage3_toNat (x : NetV2) : (stage3 x).toNat = (x.toNat * 5) &&& 0x249249 := by
  have h : (x.toNat * 5) &&& 0x249249 ≤ 0x249249 := Nat.and_le_right
  simp only [stage3, mul3, mask3, BitVec.toNat_ofNat]
  omega

theorem stage4_toNat_of_fits (x : NetV3) (h : x.toNat * 7 < 2 ^ 24) : (stage4 x).toNat = x.toNat * 7 := by
  have hf : fits 24 (x.toNat * mul4) = true := decide_eq_true h
  rw [stage4, if_pos hf]
  simp only [mul4, BitVec.toNat_ofNat]
  omega

/-- STG4's product fits on every net that STG3 can drive (R50). -/
theorem stage4_toNat_after_stage3 (x : NetV2) : (stage4 (stage3 x)).toNat = (stage3 x).toNat * 7 := by
  have h : (x.toNat * 5) &&& 0x249249 ≤ 0x249249 := Nat.and_le_right
  apply stage4_toNat_of_fits
  rw [stage3_toNat]
  omega

theorem spreadWord_toNat (v : Byte) :
    (spreadWord v).toNat =
      ((((((v.toNat * 0x101) &&& 0x0F00F) * 0x11) &&& 0x0C30C3) * 5) &&& 0x249249) * 7 := by
  rw [spreadWord, stage4_toNat_after_stage3, stage3_toNat, stage2_toNat, stage1_toNat]

theorem decomposeWord_eq_slices (e : Expanded) :
    decomposeWord e = ⟨e.extractLsb' 0 8, e.extractLsb' 8 8, e.extractLsb' 16 8⟩ := by
  have mask (n : Nat) : n &&& 255 = n % 2 ^ 8 := Nat.and_two_pow_sub_one_eq_mod n 8
  simp only [decomposeWord, laneMask, Lanes.mk.injEq]
  refine ⟨?_, ?_, ?_⟩ <;> apply BitVec.eq_of_toNat_eq <;>
    simp only [BitVec.toNat_ofNat, BitVec.extractLsb'_toNat, mask, Nat.mod_mod, Nat.shiftRight_zero]

end Sys2Proof.Machine
end

