-- ==== Sys2Proof/Laws/HostVars.lean ====
section
/-! SUPPORT. The laws of the host's variables: a write is read back, it leaves every other variable alone, and it keeps
the canonical form. -/

namespace Sys2Proof.Machine

theorem HostVars.get_put_same (m : HostVars) (r : HostVar) (n : Nat) : (m.put r n).get r = some n := by
  induction m with
  | nil => simp [HostVars.put, HostVars.get]
  | cons p m ih =>
    obtain ⟨k, x⟩ := p
    simp only [HostVars.put]
    split
    · simp [HostVars.get]
    · split
      · simp [HostVars.get]
      · rename_i _ hne
        simp [HostVars.get, ih, Ne.symm hne]

theorem HostVars.get_put_other (m : HostVars) (r q : HostVar) (n : Nat) (h : q ≠ r) :
    (m.put r n).get q = m.get q := by
  induction m with
  | nil => simp [HostVars.put, HostVars.get, Ne.symm h]
  | cons p m ih =>
    obtain ⟨k, x⟩ := p
    simp only [HostVars.put]
    split
    · simp [HostVars.get, Ne.symm h]
    · split
      · rename_i _ he
        subst he
        simp [HostVars.get, Ne.symm h]
      · simp [HostVars.get, ih]

/-- What any variable reads as after a write. -/
theorem HostVars.get_put (m : HostVars) (r q : HostVar) (n : Nat) :
    (m.put r n).get q = if q = r then some n else m.get q := by
  split
  · rename_i h
    rw [h, HostVars.get_put_same]
  · exact HostVars.get_put_other m r q n ‹_›

/-- Every variable a write leaves in the list was there before, or is the one written. -/
theorem HostVars.mem_put (m : HostVars) (r : HostVar) (n : Nat) (p : HostVar × Nat) (h : p ∈ m.put r n) :
    p = (r, n) ∨ p ∈ m := by
  induction m with
  | nil => simpa [HostVars.put] using h
  | cons q m ih =>
    obtain ⟨k, x⟩ := q
    simp only [HostVars.put] at h
    split at h
    · simpa using h
    · split at h
      · rcases List.mem_cons.mp h with h | h
        · exact .inl h
        · exact .inr (List.mem_cons_of_mem _ h)
      · rcases List.mem_cons.mp h with h | h
        · exact .inr (h ▸ List.mem_cons_self)
        · exact (ih h).imp_right (List.mem_cons_of_mem _)

theorem HostVars.put_wf (m : HostVars) (r : HostVar) (n : Nat) (h : m.wf) : (m.put r n).wf := by
  induction m with
  | nil => simp [HostVars.put]
  | cons q m ih =>
    obtain ⟨k, x⟩ := q
    obtain ⟨hk, hm⟩ := List.pairwise_cons.mp h
    simp only [HostVars.put]
    split
    · rename_i hlt
      refine List.pairwise_cons.mpr ⟨fun p hp => ?_, h⟩
      rcases List.mem_cons.mp hp with rfl | hp
      · exact hlt
      · exact Nat.lt_trans hlt (hk p hp)
    · rename_i hnlt
      split
      · rename_i he
        exact List.pairwise_cons.mpr ⟨fun p hp => he ▸ hk p hp, hm⟩
      · rename_i hne
        refine List.pairwise_cons.mpr ⟨fun p hp => ?_, ih hm⟩
        rcases HostVars.mem_put m r n p hp with rfl | hp
        · exact Nat.lt_of_le_of_ne (Nat.le_of_not_lt ‹_›) (Ne.symm hne)
        · exact hk p hp

end Sys2Proof.Machine
end

