-- ==== Sys2Proof/Laws/State.lean ====
section
/-! SUPPORT. For each update of the state, one lemma per field: what the update makes it. All hold by `rfl`, so that no
later proof unfolds a record update. -/

namespace Sys2Proof.Machine

@[simp] theorem State.driveV1_valueIn (s : State) (x : NetV1) : (s.driveV1 x).valueIn = s.valueIn := rfl
@[simp] theorem State.driveV1_status (s : State) (x : NetV1) : (s.driveV1 x).status = s.status := rfl
@[simp] theorem State.driveV1_nets (s : State) (x : NetV1) : (s.driveV1 x).nets = { s.nets with v1 := x } := rfl
@[simp] theorem State.driveV1_lanes (s : State) (x : NetV1) : (s.driveV1 x).lanes = s.lanes := rfl
@[simp] theorem State.driveV1_draws (s : State) (x : NetV1) : (s.driveV1 x).draws = s.draws := rfl
@[simp] theorem State.driveV1_stream (s : State) (x : NetV1) : (s.driveV1 x).stream = s.stream := rfl
@[simp] theorem State.driveV1_host (s : State) (x : NetV1) : (s.driveV1 x).host = s.host := rfl

@[simp] theorem State.driveV2_valueIn (s : State) (x : NetV2) : (s.driveV2 x).valueIn = s.valueIn := rfl
@[simp] theorem State.driveV2_status (s : State) (x : NetV2) : (s.driveV2 x).status = s.status := rfl
@[simp] theorem State.driveV2_nets (s : State) (x : NetV2) : (s.driveV2 x).nets = { s.nets with v2 := x } := rfl
@[simp] theorem State.driveV2_lanes (s : State) (x : NetV2) : (s.driveV2 x).lanes = s.lanes := rfl
@[simp] theorem State.driveV2_draws (s : State) (x : NetV2) : (s.driveV2 x).draws = s.draws := rfl
@[simp] theorem State.driveV2_stream (s : State) (x : NetV2) : (s.driveV2 x).stream = s.stream := rfl
@[simp] theorem State.driveV2_host (s : State) (x : NetV2) : (s.driveV2 x).host = s.host := rfl

@[simp] theorem State.driveV3_valueIn (s : State) (x : NetV3) : (s.driveV3 x).valueIn = s.valueIn := rfl
@[simp] theorem State.driveV3_status (s : State) (x : NetV3) : (s.driveV3 x).status = s.status := rfl
@[simp] theorem State.driveV3_nets (s : State) (x : NetV3) : (s.driveV3 x).nets = { s.nets with v3 := x } := rfl
@[simp] theorem State.driveV3_lanes (s : State) (x : NetV3) : (s.driveV3 x).lanes = s.lanes := rfl
@[simp] theorem State.driveV3_draws (s : State) (x : NetV3) : (s.driveV3 x).draws = s.draws := rfl
@[simp] theorem State.driveV3_stream (s : State) (x : NetV3) : (s.driveV3 x).stream = s.stream := rfl
@[simp] theorem State.driveV3_host (s : State) (x : NetV3) : (s.driveV3 x).host = s.host := rfl

@[simp] theorem State.driveExpanded_valueIn (s : State) (x : Expanded) :
    (s.driveExpanded x).valueIn = s.valueIn := rfl
@[simp] theorem State.driveExpanded_status (s : State) (x : Expanded) : (s.driveExpanded x).status = s.status := rfl
@[simp] theorem State.driveExpanded_nets (s : State) (x : Expanded) :
    (s.driveExpanded x).nets = { s.nets with expanded := x } := rfl
@[simp] theorem State.driveExpanded_lanes (s : State) (x : Expanded) : (s.driveExpanded x).lanes = s.lanes := rfl
@[simp] theorem State.driveExpanded_draws (s : State) (x : Expanded) : (s.driveExpanded x).draws = s.draws := rfl
@[simp] theorem State.driveExpanded_stream (s : State) (x : Expanded) : (s.driveExpanded x).stream = s.stream := rfl
@[simp] theorem State.driveExpanded_host (s : State) (x : Expanded) : (s.driveExpanded x).host = s.host := rfl

@[simp] theorem State.driveLanes_valueIn (s : State) (l : Lanes) : (s.driveLanes l).valueIn = s.valueIn := rfl
@[simp] theorem State.driveLanes_status (s : State) (l : Lanes) : (s.driveLanes l).status = s.status := rfl
@[simp] theorem State.driveLanes_nets (s : State) (l : Lanes) : (s.driveLanes l).nets = s.nets := rfl
@[simp] theorem State.driveLanes_lanes (s : State) (l : Lanes) : (s.driveLanes l).lanes = l := rfl
@[simp] theorem State.driveLanes_draws (s : State) (l : Lanes) : (s.driveLanes l).draws = s.draws := rfl
@[simp] theorem State.driveLanes_stream (s : State) (l : Lanes) : (s.driveLanes l).stream = s.stream := rfl
@[simp] theorem State.driveLanes_host (s : State) (l : Lanes) : (s.driveLanes l).host = s.host := rfl

@[simp] theorem State.driveInput_valueIn (s : State) (v : Byte) : (s.driveInput v).valueIn = .driven v := rfl
@[simp] theorem State.driveInput_status (s : State) (v : Byte) : (s.driveInput v).status = .settling := rfl
@[simp] theorem State.driveInput_nets (s : State) (v : Byte) :
    (s.driveInput v).nets = drawNets s.stream s.draws := rfl
@[simp] theorem State.driveInput_lanes (s : State) (v : Byte) :
    (s.driveInput v).lanes = drawLanes s.stream s.draws := rfl
@[simp] theorem State.driveInput_draws (s : State) (v : Byte) : (s.driveInput v).draws = s.draws + 1 := rfl
@[simp] theorem State.driveInput_stream (s : State) (v : Byte) : (s.driveInput v).stream = s.stream := rfl
@[simp] theorem State.driveInput_host (s : State) (v : Byte) : (s.driveInput v).host = s.host := rfl

@[simp] theorem State.markSettled_valueIn (s : State) : (s.markSettled).valueIn = s.valueIn := rfl
@[simp] theorem State.markSettled_status (s : State) : (s.markSettled).status = .settled := rfl
@[simp] theorem State.markSettled_nets (s : State) : (s.markSettled).nets = s.nets := rfl
@[simp] theorem State.markSettled_lanes (s : State) : (s.markSettled).lanes = s.lanes := rfl
@[simp] theorem State.markSettled_draws (s : State) : (s.markSettled).draws = s.draws := rfl
@[simp] theorem State.markSettled_stream (s : State) : (s.markSettled).stream = s.stream := rfl
@[simp] theorem State.markSettled_host (s : State) : (s.markSettled).host = s.host := rfl

@[simp] theorem State.nextLine_valueIn (s : State) : (s.nextLine).valueIn = s.valueIn := rfl
@[simp] theorem State.nextLine_status (s : State) : (s.nextLine).status = s.status := rfl
@[simp] theorem State.nextLine_nets (s : State) : (s.nextLine).nets = s.nets := rfl
@[simp] theorem State.nextLine_lanes (s : State) : (s.nextLine).lanes = s.lanes := rfl
@[simp] theorem State.nextLine_draws (s : State) : (s.nextLine).draws = s.draws := rfl
@[simp] theorem State.nextLine_stream (s : State) : (s.nextLine).stream = s.stream := rfl
@[simp] theorem State.nextLine_host (s : State) : (s.nextLine).host = { s.host with line := s.host.line + 1 } := rfl

@[simp] theorem State.goto_valueIn (s : State) (t : Nat) : (s.goto t).valueIn = s.valueIn := rfl
@[simp] theorem State.goto_status (s : State) (t : Nat) : (s.goto t).status = s.status := rfl
@[simp] theorem State.goto_nets (s : State) (t : Nat) : (s.goto t).nets = s.nets := rfl
@[simp] theorem State.goto_lanes (s : State) (t : Nat) : (s.goto t).lanes = s.lanes := rfl
@[simp] theorem State.goto_draws (s : State) (t : Nat) : (s.goto t).draws = s.draws := rfl
@[simp] theorem State.goto_stream (s : State) (t : Nat) : (s.goto t).stream = s.stream := rfl
@[simp] theorem State.goto_host (s : State) (t : Nat) : (s.goto t).host = { s.host with line := t } := rfl

@[simp] theorem State.setVar_valueIn (s : State) (r : HostVar) (n : Nat) : (s.setVar r n).valueIn = s.valueIn := rfl
@[simp] theorem State.setVar_status (s : State) (r : HostVar) (n : Nat) : (s.setVar r n).status = s.status := rfl
@[simp] theorem State.setVar_nets (s : State) (r : HostVar) (n : Nat) : (s.setVar r n).nets = s.nets := rfl
@[simp] theorem State.setVar_lanes (s : State) (r : HostVar) (n : Nat) : (s.setVar r n).lanes = s.lanes := rfl
@[simp] theorem State.setVar_draws (s : State) (r : HostVar) (n : Nat) : (s.setVar r n).draws = s.draws := rfl
@[simp] theorem State.setVar_stream (s : State) (r : HostVar) (n : Nat) : (s.setVar r n).stream = s.stream := rfl
@[simp] theorem State.setVar_host (s : State) (r : HostVar) (n : Nat) :
    (s.setVar r n).host = { s.host with vars := s.host.vars.put r n } := rfl

@[simp] theorem State.keepSample_valueIn (s : State) (l : Lanes) (r0 r1 r2 : HostVar) :
    (s.keepSample l r0 r1 r2).valueIn = s.valueIn := rfl
@[simp] theorem State.keepSample_status (s : State) (l : Lanes) (r0 r1 r2 : HostVar) :
    (s.keepSample l r0 r1 r2).status = s.status := rfl
@[simp] theorem State.keepSample_nets (s : State) (l : Lanes) (r0 r1 r2 : HostVar) :
    (s.keepSample l r0 r1 r2).nets = s.nets := rfl
@[simp] theorem State.keepSample_lanes (s : State) (l : Lanes) (r0 r1 r2 : HostVar) :
    (s.keepSample l r0 r1 r2).lanes = s.lanes := rfl
@[simp] theorem State.keepSample_draws (s : State) (l : Lanes) (r0 r1 r2 : HostVar) :
    (s.keepSample l r0 r1 r2).draws = s.draws := rfl
@[simp] theorem State.keepSample_stream (s : State) (l : Lanes) (r0 r1 r2 : HostVar) :
    (s.keepSample l r0 r1 r2).stream = s.stream := rfl
@[simp] theorem State.keepSample_host (s : State) (l : Lanes) (r0 r1 r2 : HostVar) :
    (s.keepSample l r0 r1 r2).host = { s.host with vars := ((s.host.vars.put r0 l.lane0.toNat).put r1 l.lane1.toNat).put r2 l.lane2.toNat } := rfl

@[simp] theorem State.drawn_valueIn (s : State) : s.drawn.valueIn = s.valueIn := rfl
@[simp] theorem State.drawn_status (s : State) : s.drawn.status = s.status := rfl
@[simp] theorem State.drawn_nets (s : State) : s.drawn.nets = s.nets := rfl
@[simp] theorem State.drawn_lanes (s : State) : s.drawn.lanes = s.lanes := rfl
@[simp] theorem State.drawn_draws (s : State) : s.drawn.draws = s.draws + 1 := rfl
@[simp] theorem State.drawn_stream (s : State) : s.drawn.stream = s.stream := rfl
@[simp] theorem State.drawn_host (s : State) : s.drawn.host = s.host := rfl

/-! The block's machine state (R13, R85) under each update. -/

@[simp] theorem Block.apply_valueIn (v : Byte) : (Block.apply v).valueIn = .driven v := rfl
@[simp] theorem Block.apply_status (v : Byte) : (Block.apply v).status = .settling := rfl
@[simp] theorem Block.settle_valueIn (b : Block) : b.settle.valueIn = b.valueIn := rfl
@[simp] theorem Block.settle_status (b : Block) : b.settle.status = .settled := rfl

@[simp] theorem State.driveV1_toBlock (s : State) (x : NetV1) :
    (s.driveV1 x).toBlock = s.toBlock := rfl
@[simp] theorem State.driveV2_toBlock (s : State) (x : NetV2) :
    (s.driveV2 x).toBlock = s.toBlock := rfl
@[simp] theorem State.driveV3_toBlock (s : State) (x : NetV3) :
    (s.driveV3 x).toBlock = s.toBlock := rfl
@[simp] theorem State.driveExpanded_toBlock (s : State) (x : Expanded) :
    (s.driveExpanded x).toBlock = s.toBlock := rfl
@[simp] theorem State.driveLanes_toBlock (s : State) (l : Lanes) :
    (s.driveLanes l).toBlock = s.toBlock := rfl
@[simp] theorem State.nextLine_toBlock (s : State) :
    (s.nextLine).toBlock = s.toBlock := rfl
@[simp] theorem State.goto_toBlock (s : State) (t : Nat) :
    (s.goto t).toBlock = s.toBlock := rfl
@[simp] theorem State.setVar_toBlock (s : State) (r : HostVar) (n : Nat) :
    (s.setVar r n).toBlock = s.toBlock := rfl
@[simp] theorem State.keepSample_toBlock (s : State) (l : Lanes) (r0 r1 r2 : HostVar) :
    (s.keepSample l r0 r1 r2).toBlock = s.toBlock := rfl
@[simp] theorem State.drawn_toBlock (s : State) :
    (s.drawn).toBlock = s.toBlock := rfl
@[simp] theorem State.driveInput_toBlock (s : State) (v : Byte) : (s.driveInput v).toBlock = Block.apply v := rfl
@[simp] theorem State.markSettled_toBlock (s : State) : s.markSettled.toBlock = s.toBlock.settle := rfl

/-! A sample moves the counter of free values only, and only when it draws one. -/

@[simp] theorem State.afterSample_valueIn (s : State) : s.afterSample.valueIn = s.valueIn := by
  unfold State.afterSample; split <;> rfl
@[simp] theorem State.afterSample_status (s : State) : s.afterSample.status = s.status := by
  unfold State.afterSample; split <;> rfl
@[simp] theorem State.afterSample_nets (s : State) : s.afterSample.nets = s.nets := by
  unfold State.afterSample; split <;> rfl
@[simp] theorem State.afterSample_lanes (s : State) : s.afterSample.lanes = s.lanes := by
  unfold State.afterSample; split <;> rfl
@[simp] theorem State.afterSample_stream (s : State) : s.afterSample.stream = s.stream := by
  unfold State.afterSample; split <;> rfl
@[simp] theorem State.afterSample_host (s : State) : s.afterSample.host = s.host := by
  unfold State.afterSample; split <;> rfl
@[simp] theorem State.afterSample_toBlock (s : State) : s.afterSample.toBlock = s.toBlock := by
  unfold State.afterSample; split <;> rfl

theorem Block.settledOn_of_settled (b : Block) (v : Byte) (hs : b.status = .settled) (hv : b.valueIn = .driven v) :
    b.settledOn = some v := by
  simp [Block.settledOn, hs, hv]

theorem Block.settledOn_of_settling (b : Block) (hs : b.status = .settling) : b.settledOn = none := by
  simp [Block.settledOn, hs]

theorem State.sampled_of_settled (s : State) (v : Byte) (hs : s.status = .settled) (hv : s.valueIn = .driven v) :
    s.sampled = decomposeWord (spreadWord v) := by
  simp [State.sampled, Block.sample, Block.settledOn_of_settled s.toBlock v hs hv]

theorem State.sampled_of_settling (s : State) (hs : s.status = .settling) :
    s.sampled = drawLanes s.stream s.draws := by
  simp [State.sampled, Block.sample, Block.settledOn_of_settling s.toBlock hs]

theorem State.afterSample_of_settled (s : State) (v : Byte) (hs : s.status = .settled) (hv : s.valueIn = .driven v) :
    s.afterSample = s := by
  simp [State.afterSample, Block.settledOn_of_settled s.toBlock v hs hv]

theorem State.afterSample_of_settling (s : State) (hs : s.status = .settling) : s.afterSample = s.drawn := by
  simp [State.afterSample, Block.settledOn_of_settling s.toBlock hs]

/-- All that a sample can leave. -/
theorem State.afterSample_cases (s : State) : s.afterSample = s ∨ s.afterSample = s.drawn := by
  unfold State.afterSample; split
  · exact .inl rfl
  · exact .inr rfl

@[simp] theorem State.reset_valueIn : State.reset.valueIn = .undriven := rfl
@[simp] theorem State.reset_status : State.reset.status = .settling := rfl
@[simp] theorem State.reset_host : State.reset.host = ⟨[], 0, []⟩ := rfl
@[simp] theorem State.powerUp_stream (k : Nat) : (State.powerUp k).stream = k := rfl

end Sys2Proof.Machine
end

