-- ==== Sys2Proof/Laws/Exec.lean ====
section
/-! SUPPORT. What each meaning, an evaluation and a step can do, said once. -/

namespace Sys2Proof.Machine

@[simp] theorem Result.andThen_next (s : State) (f : State → Result) : Result.andThen (.next s) f = f s := rfl
@[simp] theorem Result.andThen_refused (r : Refusal) (f : State → Result) :
    Result.andThen (.refused r) f = .refused r := rfl

/-- What comes of a sequence that completes: its first part completed too. -/
theorem Result.andThen_eq_next (o : Result) (f : State → Result) (t : State) (h : Result.andThen o f = .next t) :
    ∃ s, o = .next s ∧ f s = .next t := by
  cases o with
  | next s => exact ⟨s, rfl, h⟩
  | fault r => cases r
  | refused r => cases h

theorem withInput_driven (s : State) (v : Byte) (f : Byte → Result) (h : s.valueIn = .driven v) :
    withInput s f = f v := by
  simp [withInput, h]

theorem withInput_undriven (s : State) (f : Byte → Result) (h : s.valueIn = .undriven) :
    withInput s f = .refused .undefinedInput := by
  simp [withInput, h]

theorem withExpr_ok (s : State) (e : HostExpr) (f : Nat → Result) (n : Nat) (h : e.eval s.host.vars = .ok n) :
    withExpr s e f = f n := by
  simp [withExpr, h]

theorem withExpr_error (s : State) (e : HostExpr) (f : Nat → Result) (r : HostVar)
    (h : e.eval s.host.vars = .error r) : withExpr s e f = .refused (.unsetHostVariable r) := by
  simp [withExpr, h]

theorem withExpr_eq_next (s t : State) (e : HostExpr) (f : Nat → Result) (h : withExpr s e f = .next t) :
    ∃ n, e.eval s.host.vars = .ok n ∧ f n = .next t := by
  unfold withExpr at h
  split at h
  · exact ⟨_, ‹_›, h⟩
  · cases h

theorem withByte_of_range (n : Int) (f : Byte → Result) (h0 : 0 ≤ n) (h1 : n ≤ 255) :
    withByte n f = f (BitVec.ofNat 8 n.toNat) := if_pos ⟨h0, h1⟩

theorem withByte_of_outside (n : Int) (f : Byte → Result) (h : n < 0 ∨ 255 < n) :
    withByte n f = .refused .invalidInputRange := if_neg (by omega)

theorem withByte_toNat (v : Byte) (f : Byte → Result) : withByte (v.toNat : Int) f = f v := by
  rw [withByte_of_range _ _ (by omega) (by omega)]
  simp

/-- The state after SPREAD on the value `v`. -/
theorem exec_spread_driven (s : State) (v : Byte) (h : s.valueIn = .driven v) :
    exec .spread s = .next
      { s with nets := ⟨stage1 v, stage2 (stage1 v), stage3 (stage2 (stage1 v)), spreadWord v⟩ } := by
  simp [exec, execSpread, withInput_driven s v _ h, State.driveV1, State.driveV2, State.driveV3,
    State.driveExpanded, spreadWord]

/-- The state after a block has settled on the value `v`. -/
def State.evaluated (s : State) (v : Byte) : State :=
  { s with
    status := .settled
    nets := ⟨stage1 v, stage2 (stage1 v), stage3 (stage2 (stage1 v)), spreadWord v⟩
    lanes := decomposeWord (spreadWord v) }

theorem settle_driven (s : State) (v : Byte) (h : s.valueIn = .driven v) : settle s = .next (s.evaluated v) := by
  have hops : operationsOn v.toNat = [.spread, .decompose] := by
    simp [operationsOn, rowsSelected, opcodeTable, OpcodeRow.selects, Instr.row]
  have hdec : decode s.valueIn.words = .ok (⟨v, [.spread, .decompose]⟩, []) := by
    rw [h, PortLevel.words, decode, hops]
  rw [settle, hdec]
  simp only [runOps, exec_spread_driven s v h, Result.andThen_next]
  rfl

theorem settle_undriven (s : State) (h : s.valueIn = .undriven) : settle s = .refused .undefinedInput := by
  simp [settle, h, PortLevel.words, decode]

/-- All that settling can do. -/
theorem settle_eq_next (s t : State) (h : settle s = .next t) : ∃ v, s.valueIn = .driven v ∧ t = s.evaluated v := by
  cases hv : s.valueIn with
  | undriven => rw [settle_undriven s hv] at h; cases h
  | driven v =>
    rw [settle_driven s v hv] at h
    injection h with h
    exact ⟨v, rfl, h.symm⟩

theorem step_of_line (s : State) (l : HostLine) (h : s.host.current = some l) : step s = takeLine l s := by
  simp [step, h]

theorem step_of_no_line (s : State) (h : s.host.current = none) : step s = settle s := by
  simp [step, h]

/-- When the block may settle before a line. -/
theorem State.maySettleBefore_iff (s : State) (l : HostLine) :
    s.maySettleBefore l = true ↔ l ≠ .wait ∧ s.status = .settling ∧ ∃ v, s.valueIn = .driven v := by
  cases hv : s.valueIn <;> simp [State.maySettleBefore, hv]

theorem takeLine_of_hosts_turn (s : State) (l : HostLine) (h : s.maySettleBefore l = false) :
    takeLine l s = hostStep l s := by
  simp [takeLine, h]

theorem takeLine_wait (s : State) : takeLine .wait s = hostWait s :=
  takeLine_of_hosts_turn s .wait (by simp [State.maySettleBefore])

theorem takeLine_of_settled (s : State) (l : HostLine) (h : s.status = .settled) : takeLine l s = hostStep l s :=
  takeLine_of_hosts_turn s l (by simp [State.maySettleBefore, h])

theorem takeLine_of_undriven (s : State) (l : HostLine) (h : s.valueIn = .undriven) : takeLine l s = hostStep l s :=
  takeLine_of_hosts_turn s l (by simp [State.maySettleBefore, h])

/-- All that a step at a host line can be: the line, or, while the block settles on a driven input and the line is no WAIT,
the line or the block's own settling, with one free value drawn to say which. -/
theorem takeLine_cases (s : State) (l : HostLine) :
    takeLine l s = hostStep l s ∨
    (l ≠ .wait ∧ s.status = .settling ∧ (∃ v, s.valueIn = .driven v) ∧
      (takeLine l s = hostStep l s.drawn ∨ takeLine l s = settle s.drawn)) := by
  cases h : s.maySettleBefore l with
  | false => exact .inl (takeLine_of_hosts_turn s l h)
  | true =>
    obtain ⟨h1, h2, h3⟩ := (s.maySettleBefore_iff l).mp h
    refine .inr ⟨h1, h2, h3, ?_⟩
    simp only [takeLine, h, if_true]
    split
    · exact .inr rfl
    · exact .inl rfl

/-- A call in range evaluates its value from any state. -/
theorem hostCall_of_range (n : Int) (r0 r1 r2 : HostVar) (s : State) (h0 : 0 ≤ n) (h1 : n ≤ 255) :
    hostCall (.integer n) r0 r1 r2 s =
      .next ((((s.driveInput (BitVec.ofNat 8 n.toNat)).evaluated (BitVec.ofNat 8 n.toNat)).keepSample
        (decomposeWord (spreadWord (BitVec.ofNat 8 n.toNat))) r0 r1 r2).nextLine) := by
  rw [hostCall, withByte_of_range n _ h0 h1, settle_driven _ _ (State.driveInput_valueIn _ _)]
  rfl

/-- All that a host line can do. -/
theorem hostStep_eq_next (s t : State) (l : HostLine) (h : hostStep l s = .next t) :
    (∃ e v, l = .apply e ∧ e.eval s.host.vars = .ok v.toNat ∧ t = (s.driveInput v).nextLine) ∨
    (∃ v, l = .wait ∧ s.valueIn = .driven v ∧ t = (s.evaluated v).nextLine) ∨
    (∃ r0 r1 r2, l = .sample r0 r1 r2 ∧ t = (s.afterSample.keepSample s.sampled r0 r1 r2).nextLine) ∨
    (∃ r e n, l = .set r e ∧ e.eval s.host.vars = .ok n ∧ t = (s.setVar r n).nextLine) ∨
    (∃ c k n, l = .ifGoto c k ∧ c.eval s.host.vars = .ok n ∧ t = if n = 0 then s.nextLine else s.goto k) ∨
    (∃ v r0 r1 r2, l = .call (.integer (v : Byte).toNat) r0 r1 r2 ∧
      t = (((s.driveInput v).evaluated v).keepSample (decomposeWord (spreadWord v)) r0 r1 r2).nextLine) := by
  cases l with
  | apply e =>
    left
    obtain ⟨n, he, h⟩ := withExpr_eq_next s t e _ h
    by_cases hn : n ≤ 255
    · rw [withByte_of_range _ _ (by omega) (by omega)] at h
      injection h with h
      refine ⟨e, BitVec.ofNat 8 n, rfl, ?_, by simpa using h.symm⟩
      rw [he, BitVec.toNat_ofNat, Nat.mod_eq_of_lt (by omega)]
    · rw [withByte_of_outside _ _ (by omega)] at h
      cases h
  | applyUndefined => cases h
  | wait =>
    right; left
    obtain ⟨u, hu, h⟩ := Result.andThen_eq_next _ _ _ h
    obtain ⟨v, hv, rfl⟩ := settle_eq_next s u hu
    injection h with h
    exact ⟨v, rfl, hv, h.symm⟩
  | sample r0 r1 r2 =>
    right; right; left
    injection h with h
    exact ⟨r0, r1, r2, rfl, h.symm⟩
  | set r e =>
    right; right; right; left
    obtain ⟨n, he, h⟩ := withExpr_eq_next s t e _ h
    injection h with h
    exact ⟨r, e, n, rfl, he, h.symm⟩
  | ifGoto c k =>
    right; right; right; right; left
    obtain ⟨n, he, h⟩ := withExpr_eq_next s t c _ h
    refine ⟨c, k, n, rfl, he, ?_⟩
    split at h <;> rename_i hn <;> injection h with h <;> simp [hn, h]
  | call a r0 r1 r2 =>
    right; right; right; right; right
    cases a with
    | notInteger => cases h
    | integer n =>
      by_cases hn : 0 ≤ n ∧ n ≤ 255
      · rw [hostStep, hostCall_of_range n r0 r1 r2 s hn.1 hn.2] at h
        injection h with h
        have hn' : ((BitVec.ofNat 8 n.toNat).toNat : Int) = n := by
          rw [BitVec.toNat_ofNat, Nat.mod_eq_of_lt (by omega)]
          omega
        refine ⟨BitVec.ofNat 8 n.toNat, r0, r1, r2, ?_, h.symm⟩
        rw [hn']
      · rw [hostStep, hostCall, withByte_of_outside n _ (by omega)] at h
        cases h

/-- What the host's variables read as after a sample is kept. -/
theorem State.keepSample_get (s : State) (l : Lanes) (r0 r1 r2 q : HostVar) :
    (s.keepSample l r0 r1 r2).host.vars.get q =
      if q = r2 then some l.lane2.toNat else if q = r1 then some l.lane1.toNat
      else if q = r0 then some l.lane0.toNat else s.host.vars.get q := by
  simp only [State.keepSample_host, HostVars.get_put]

/-- All that a step can do, in terms of its transitions: the block settles, or the host takes its line, from the state as
it is or with one free value drawn. -/
theorem step_eq_next (s t : State) (h : step s = .next t) :
    ∃ u, (u = s ∨ u = s.drawn) ∧
      (settle u = .next t ∨ ∃ l, s.host.current = some l ∧ hostStep l u = .next t) := by
  cases hc : s.host.current with
  | none => exact ⟨s, .inl rfl, .inl (step_of_no_line s hc ▸ h)⟩
  | some l =>
    rw [step_of_line s l hc] at h
    rcases takeLine_cases s l with e | ⟨-, -, -, e | e⟩ <;> rw [e] at h
    · exact ⟨s, .inl rfl, .inr ⟨l, rfl, h⟩⟩
    · exact ⟨s.drawn, .inr rfl, .inr ⟨l, rfl, h⟩⟩
    · exact ⟨s.drawn, .inr rfl, .inl h⟩

end Sys2Proof.Machine
end

