-- ==== Sys2Proof/Laws/PerInstr.lean ====
section
/-! SUPPORT. The statements "for every operation", one lemma per constructor. -/

namespace Sys2Proof.Laws.AlwaysPerformed

/-- An operation is well formed, its row has no select bits, every number meets that row, and the evaluation that any
8-bit word decodes to performs it (30_encoding.md R36, R41). -/
def Statement (i : Instr) : Prop :=
  i.wf = true ∧ i.row.mask = 0 ∧ i.row.matchBits = 0 ∧ (∀ w, i.row.selects w = true) ∧
    ∀ b rest, ∃ e, decode (b :: rest) = .ok (e, rest) ∧ e.wf = true ∧ e.performs i = true

/-- Every word selects every row, so each evaluation performs SPREAD and then DECOMPOSE. -/
theorem operationsOn_eq (w : Nat) : operationsOn w = [.spread, .decompose] := by
  simp [operationsOn, rowsSelected, opcodeTable, OpcodeRow.selects, Instr.row]

theorem stg1 : Statement .stg1 :=
  ⟨rfl, rfl, rfl, fun w => by simp [OpcodeRow.selects, Instr.row],
    fun b rest => ⟨_, rfl, by simp [Evaluation.wf, operationsOn_eq], by simp [Evaluation.performs, operationsOn_eq, Instr.stages]⟩⟩

theorem stg2 : Statement .stg2 :=
  ⟨rfl, rfl, rfl, fun w => by simp [OpcodeRow.selects, Instr.row],
    fun b rest => ⟨_, rfl, by simp [Evaluation.wf, operationsOn_eq], by simp [Evaluation.performs, operationsOn_eq, Instr.stages]⟩⟩

theorem stg3 : Statement .stg3 :=
  ⟨rfl, rfl, rfl, fun w => by simp [OpcodeRow.selects, Instr.row],
    fun b rest => ⟨_, rfl, by simp [Evaluation.wf, operationsOn_eq], by simp [Evaluation.performs, operationsOn_eq, Instr.stages]⟩⟩

theorem stg4 : Statement .stg4 :=
  ⟨rfl, rfl, rfl, fun w => by simp [OpcodeRow.selects, Instr.row],
    fun b rest => ⟨_, rfl, by simp [Evaluation.wf, operationsOn_eq], by simp [Evaluation.performs, operationsOn_eq, Instr.stages]⟩⟩

theorem spread : Statement .spread :=
  ⟨rfl, rfl, rfl, fun w => by simp [OpcodeRow.selects, Instr.row],
    fun b rest => ⟨_, rfl, by simp [Evaluation.wf, operationsOn_eq], by simp [Evaluation.performs, operationsOn_eq, Instr.stages]⟩⟩

theorem decompose : Statement .decompose :=
  ⟨rfl, rfl, rfl, fun w => by simp [OpcodeRow.selects, Instr.row],
    fun b rest => ⟨_, rfl, by simp [Evaluation.wf, operationsOn_eq], by simp [Evaluation.performs, operationsOn_eq, Instr.stages]⟩⟩

end Sys2Proof.Laws.AlwaysPerformed
end

