-- ==== Sys2Proof/Tests/Slice0.lean ====
section
/-! SUPPORT. The model's own tests. Expected results come from spec/95_test_vectors.md and from the encodings of
spec/30_encoding.md, not from the model. The last part shows, for each statement with hypotheses, states and operands that
meet them. -/

namespace Sys2Proof.Tests

open Sys2Proof Sys2Proof.Machine

/-- Power-up with the byte `v` on the input port. -/
def drivenState (v : Byte) : State := { State.reset with valueIn := .driven v }

/-- A block settled on `v`. -/
def settledState (v : Byte) : State := (State.reset.driveInput v).evaluated v

/-- The host at a line of its own. -/
def atLine (l : HostLine) (s : State) : State := { s with host := ⟨[l], 0, []⟩ }

/-- Something of the next state, if there is one. -/
def after {α : Type} (o : Result) (f : State → α) : Option α :=
  match o with
  | .next s => some (f s)
  | .fault _ => none
  | .refused _ => none

/-- Why a step was refused, if it was. -/
def refusal (o : Result) : Option Refusal :=
  match o with
  | .next _ => none
  | .fault _ => none
  | .refused r => some r

/-! ### Widths (R6) -/

theorem test_widths : wExp = wIn * stride ∧ wExp = nLanes * wLane ∧ wExp = 24 := by decide

/-! ### Well-formedness: what each check refuses -/

theorem test_wf_every_operation : opcodeTable.all Instr.wf = true := by decide
theorem test_wf_evaluation : (Evaluation.mk 0xA5 [.spread, .decompose]).wf = true := by decide
theorem test_illformed_evaluation_order : (Evaluation.mk 0xA5 [.decompose, .spread]).wf = false := by decide
theorem test_illformed_evaluation_missing : (Evaluation.mk 0xA5 [.spread]).wf = false := by decide
theorem test_illformed_call_too_big : (HostLine.call (.integer 256) 0 1 2).wf = false := by decide
theorem test_illformed_call_negative : (HostLine.call (.integer (-1)) 0 1 2).wf = false := by decide
theorem test_illformed_call_no_integer : (HostLine.call .notInteger 0 1 2).wf = false := by decide
theorem test_illformed_call_same_variables : (HostLine.call (.integer 1) 0 0 2).wf = false := by decide
theorem test_illformed_apply_too_big : (HostLine.apply (.lit 256)).wf = false := by decide
theorem test_illformed_apply_undefined : HostLine.applyUndefined.wf = false := by decide
theorem test_illformed_sample_same_variables : (HostLine.sample 0 1 1).wf = false := by decide
theorem test_illformed_jump : hostProgramWf [.ifGoto (.lit 1) 2] = false := by decide
theorem test_wf_program : hostProgramWf [.call (.integer 0xFF) 0 1 2, .ifGoto (.lit 1) 0] = true := by decide

/-! ### Decoding: words written out bit by bit from R37 and R43. No bit selects an operation (R41), so each word stands for
the evaluation of its value, which performs every row of the map. -/

/-- What one word on the port decodes to. -/
def decoded (b : Byte) : Option (Evaluation × List Byte) := (decode [b]).toOption

theorem test_decode_spread : decoded 0b10100101#8 = some (⟨0xA5, [.spread, .decompose]⟩, []) := by decide
theorem test_decode_decompose : decoded 0b00111100#8 = some (⟨0x3C, [.spread, .decompose]⟩, []) := by decide
theorem test_decode_stg1 : (decoded 0b00000000#8).map (fun p => p.1.performs .stg1) = some true := by decide
theorem test_decode_stg2 : (decoded 0b11111111#8).map (fun p => p.1.performs .stg2) = some true := by decide
theorem test_decode_stg3 : (decoded 0b01010101#8).map (fun p => p.1.performs .stg3) = some true := by decide
theorem test_decode_stg4 : (decoded 0b10010110#8).map (fun p => p.1.performs .stg4) = some true := by decide
theorem test_decode_nothing : (decode []).toOption = none := by decide
theorem test_decode_table_word : decodeTableWord 8 0b11000011 = some .spread := by decide
theorem test_decode_table_word_too_big : decodeTableWord 16 0x100 = none := by decide
theorem test_fetched_word_is_run : after (step (State.reset.withFetchWord 8 0xA5)) (·.lanes) = some ⟨0xC7, 0x81, 0xE3⟩ := by
  decide

/-! ### The operations (95_test_vectors.md sections 3.1 to 3.8) -/

theorem test_stg1_high_nibble : after (exec .stg1 (drivenState 0xF0)) (·.nets.v1) = some 0xF000 := by decide
theorem test_stg1_bit_four : after (exec .stg1 (drivenState 0x10)) (·.nets.v1) = some 0x1000 := by decide

/-- A state with the given levels on the nets. -/
def netsState (n : Nets) : State := { State.reset with nets := n }

theorem test_stg2_low_nibble : after (exec .stg2 (netsState ⟨0x000F, 0, 0, 0⟩)) (·.nets.v2) = some 0x000C3 := by decide
theorem test_stg2_worked : after (exec .stg2 (netsState ⟨0xA005, 0, 0, 0⟩)) (·.nets.v2) = some 0x82041 := by decide
theorem test_stg3_low_pair : after (exec .stg3 (netsState ⟨0, 0x00003, 0, 0⟩)) (·.nets.v3) = some 0x000009 := by decide
theorem test_stg3_high_pair : after (exec .stg3 (netsState ⟨0, 0xC0000, 0, 0⟩)) (·.nets.v3) = some 0x240000 := by decide
theorem test_stg4_top_bit : after (exec .stg4 (netsState ⟨0, 0, 0x200000, 0⟩)) (·.nets.expanded) = some 0xE00000 := by decide
theorem test_stg4_maximum : after (exec .stg4 (netsState ⟨0, 0, 0x249249, 0⟩)) (·.nets.expanded) = some 0xFFFFFF := by decide
theorem test_spread_bit_seven : after (exec .spread (drivenState 0x80)) (·.nets.expanded) = some 0xE00000 := by decide
theorem test_spread_single_zero : after (exec .spread (drivenState 0xDF)) (·.nets.expanded) = some 0xFC7FFF := by decide
theorem test_decompose_outside_image :
    after (exec .decompose (netsState ⟨0, 0, 0, 0x123456⟩)) (·.lanes) = some ⟨0x56, 0x34, 0x12⟩ := by decide
theorem test_decompose_order :
    after (exec .decompose (netsState ⟨0, 0, 0, 0xABCDEF⟩)) (·.lanes) = some ⟨0xEF, 0xCD, 0xAB⟩ := by decide
theorem test_undriven_input_refused : refusal (exec .stg1 State.reset) = some .undefinedInput := by decide

/-! ### The host's lines (95_test_vectors.md section 4) -/

theorem test_call_0x96 : after (step (atLine (.call (.integer 0x96) 0 1 2) State.reset)) (·.host.vars) =
    some [(0, 0xF8), (1, 0x71), (2, 0xE0)] := by decide
/-- SAMPLE reads the function of the input, whatever the levels that State holds (R13, R85). -/
theorem test_sample_ignores_levels :
    after (step (atLine (.sample 0 1 2) { State.reset with valueIn := .driven 0x3C, status := .settled }))
      (·.host.vars) = some [(0, 0xC0), (1, 0xFF), (2, 0x03)] := by decide
theorem test_call_256_refused : refusal (step (atLine (.call (.integer 256) 0 1 2) State.reset)) = some .invalidInputRange := by
  decide
theorem test_call_minus_one_refused :
    refusal (step (atLine (.call (.integer (-1)) 0 1 2) State.reset)) = some .invalidInputRange := by decide
theorem test_sample_settled : after (step (atLine (.sample 5 3 4) (settledState 0x3C))) (·.host.vars) =
    some [(3, 0xFF), (4, 0x03), (5, 0xC0)] := by decide
theorem test_apply_unsettles : after (step (atLine (.apply (.lit 0xC3)) (settledState 0x3C)))
    (fun s => (s.valueIn, s.status)) = some (.driven 0xC3, .settling) := by decide
theorem test_wait_settles : after (step (atLine .wait (drivenState 0x24))) (fun s => (s.status, s.lanes)) =
    some (.settled, ⟨0xC0, 0x81, 0x03⟩) := by decide
theorem test_set_unset_variable : refusal (step (atLine (.set 0 (.var 7)) State.reset)) = some (.unsetHostVariable 7) := by decide
theorem test_if_goto : after (step (atLine (.ifGoto (.eq (.lit 3) (.lit 3)) 9) State.reset)) (·.host.line) = some 9 := by decide

/-- P4: the expanded word put together again from the three lanes of 0x96. -/
theorem test_expression_puts_lanes_together :
    ((HostExpr.add (.mul (.var 2) (.lit 0x10000)) (.add (.mul (.var 1) (.lit 0x100)) (.var 0))).eval
      [(0, 0xF8), (1, 0x71), (2, 0xE0)]).toOption = some 0xE071F8 := by decide

/-! ### Witnesses: states and operands that meet each statement's hypotheses -/

theorem witness_Stg1KeepsTwoNibbles :
    (drivenState 0x00).valueIn = .driven 0x00 ∧ (drivenState 0xFF).valueIn = .driven 0xFF ∧
      (drivenState 0xA5).valueIn = .driven 0xA5 := by decide

theorem witness_Stg2KeepsFourPairs :
    (netsState ⟨0xA005, 0, 0, 0⟩).nets.v1.toNat = ((0xA5 : Byte).toNat * 0x101) &&& 0x0F00F ∧
      (netsState ⟨0xF00F, 0, 0, 0⟩).nets.v1 &&& 0xF00F = (netsState ⟨0xF00F, 0, 0, 0⟩).nets.v1 ∧
      (netsState ⟨0, 0, 0, 0⟩).nets.v1 = 0 ∧ (netsState ⟨0, 0, 0, 0⟩).nets.v1 &&& 0xF00F = 0 := by decide

theorem witness_Stg3IsolatesEachBit :
    (netsState ⟨0, 0x82041, 0, 0⟩).nets.v2.toNat =
        ((((0xA5 : Byte).toNat * 0x101) &&& 0x0F00F) * 0x11) &&& 0x0C30C3 ∧
      (netsState ⟨0, 0x0C30C3, 0, 0⟩).nets.v2 &&& 0x0C30C3 = (netsState ⟨0, 0x0C30C3, 0, 0⟩).nets.v2 ∧
      (netsState ⟨0, 0, 0, 0⟩).nets.v2 &&& 0x0C30C3 = (netsState ⟨0, 0, 0, 0⟩).nets.v2 := by decide

theorem witness_Stg4ReplicatesEachBit :
    (netsState ⟨0, 0, 0x208041, 0⟩).nets.v3.toNat =
        (((((((0xA5 : Byte).toNat * 0x101) &&& 0x0F00F) * 0x11) &&& 0x0C30C3) * 5) &&& 0x249249) ∧
      (netsState ⟨0, 0, 0x249249, 0⟩).nets.v3 &&& 0x249249 = (netsState ⟨0, 0, 0x249249, 0⟩).nets.v3 ∧
      (netsState ⟨0, 0, 0x249249, 0⟩).nets.v3.toNat * 7 < 2 ^ 24 ∧
      (netsState ⟨0, 0, 0x249249, 0⟩).nets.v3 = 0x249249 ∧
      (netsState ⟨0, 0, 2396745, 0⟩).nets.v3.toNat * 7 < 2 ^ 24 := by decide

theorem witness_SpreadIsTheFourStagesInSeries :
    (drivenState 0x00).valueIn = .driven 0x00 ∧ (drivenState 0xFF).valueIn = .driven 0xFF ∧
      (drivenState 0xA5).valueIn = .driven 0xA5 := by decide

theorem witness_SpreadFillsBitRuns : (drivenState 0x80).valueIn = .driven 0x80 := by decide

theorem witness_SpreadBoundaryValues :
    (drivenState 0).valueIn = .driven 0 ∧ (drivenState 255).valueIn = .driven 255 := by decide

theorem witness_NoStageWraps :
    24 ≤ 24 ∧ (0xF00F : NetV1) &&& 0xF00F = 0xF00F ∧ (0x0C30C3 : NetV2) &&& 0x0C30C3 = 0x0C30C3 ∧
      (0x249249 : NetV3) &&& 0x249249 = 0x249249 ∧ (0 : NetV3) &&& 0x249249 = 0 := by decide

theorem witness_MultipliersEqualShiftAndOr :
    (0xF00F : NetV1) &&& 0xF00F = 0xF00F ∧ (0x0C30C3 : NetV2) &&& 0x0C30C3 = 0x0C30C3 ∧
      (0x249249 : NetV3) &&& 0x249249 = 0x249249 ∧ (drivenState 0x5A).valueIn = .driven 0x5A := by decide

theorem witness_SpreadIsDeterministic :
    (drivenState 0x24).valueIn = .driven 0x24 ∧ (settledState 0x24).valueIn = .driven 0x24 := by decide

/-- The state after SPREAD on `v`. -/
def spreadState (v : Byte) : State :=
  { drivenState v with nets := ⟨stage1 v, stage2 (stage1 v), stage3 (stage2 (stage1 v)), spreadWord v⟩ }

theorem exec_spread_drivenState (v : Byte) : exec .spread (drivenState v) = .next (spreadState v) :=
  exec_spread_driven _ v rfl

theorem witness_SpreadIsReversible :
    exec .spread (drivenState 0xA5) = .next (spreadState 0xA5) ∧
      (spreadState 0xA5).nets.expanded = (spreadState 0xA5).nets.expanded ∧ (drivenState 0xA5).valueIn = .driven 0xA5 :=
  ⟨exec_spread_drivenState _, rfl, rfl⟩

theorem witness_SpreadDistributesOverOrAndAnd :
    exec .spread { State.reset with valueIn := .driven 0x55 } = .next (spreadState 0x55) ∧
      exec .spread { State.reset with valueIn := .driven 0xAA } = .next (spreadState 0xAA) ∧
      exec .spread { State.reset with valueIn := .driven (0x55 ||| 0xAA) } = .next (spreadState (0x55 ||| 0xAA)) ∧
      exec .spread { State.reset with valueIn := .driven (0x55 &&& 0xAA) } = .next (spreadState (0x55 &&& 0xAA)) :=
  ⟨exec_spread_drivenState _, exec_spread_drivenState _, exec_spread_drivenState _, exec_spread_drivenState _⟩

theorem witness_DecomposeSlicesTheWord :
    (netsState ⟨0, 0, 0, 0⟩).nets.expanded = 0 ∧ (netsState ⟨0, 0, 0, 0xFFFFFF⟩).nets.expanded = 0xFFFFFF ∧
      (netsState ⟨0, 0, 0, 0xE381C7⟩).nets.expanded = 0xE381C7 := by decide

theorem witness_LanesAreDecomposeOfSpread : (drivenState 0xA5).valueIn = .driven 0xA5 := by decide

theorem witness_LaneClosedForms : (drivenState 0xDB).valueIn = .driven 0xDB := by decide

theorem witness_LanesGiveTheExpandedWordBack : (drivenState 0x96).valueIn = .driven 0x96 := by decide

theorem settledState_inv (v : Byte) : (settledState v).Inv :=
  ⟨fun _ => ⟨v, rfl, rfl, rfl, rfl, rfl, rfl⟩, List.Pairwise.nil⟩

theorem witness_LaneByteOrder : (settledState 0x96).Inv ∧ (settledState 0x96).status = .settled :=
  ⟨settledState_inv _, rfl⟩

theorem witness_LaneZeroFixedPoints :
    (drivenState 0xFF).valueIn = .driven 0xFF ∧ settle (drivenState 0xFF) = .next ((drivenState 0xFF).evaluated 0xFF) ∧
      settle (((drivenState 0xFF).evaluated 0xFF).driveInput ((drivenState 0xFF).evaluated 0xFF).lanes.lane0) =
        .next ((((drivenState 0xFF).evaluated 0xFF).driveInput ((drivenState 0xFF).evaluated 0xFF).lanes.lane0).evaluated
          ((drivenState 0xFF).evaluated 0xFF).lanes.lane0) :=
  ⟨rfl, settle_driven _ _ rfl, settle_driven _ _ rfl⟩

theorem witness_OperationsLeaveTheRestAlone :
    exec .spread (drivenState 0x01) = .next (spreadState 0x01) ∧ Instr.spread ≠ .decompose ∧
      exec .decompose State.reset = .next (State.reset.driveLanes (decomposeWord State.reset.nets.expanded)) :=
  ⟨exec_spread_drivenState _, by decide, rfl⟩

theorem witness_NoOperationEverFaults : (drivenState 0x00).valueIn = .driven 0x00 := by decide

theorem witness_UndefinedInputIsRefused :
    State.reset.valueIn = .undriven ∧ State.reset.host.current = none ∧
      (atLine .wait State.reset).valueIn = .undriven ∧ (atLine .wait State.reset).host.current = some .wait ∧
      (atLine .applyUndefined State.reset).host.current = some .applyUndefined := by decide

theorem witness_SettledStateIsAFixedPoint : (settledState 0xFF).Inv ∧ (settledState 0xFF).status = .settled :=
  ⟨settledState_inv _, rfl⟩

theorem witness_StagesGiveTheSameEvaluation : (Evaluation.mk 0x3C [.spread, .decompose]).wf = true := by decide

theorem witness_DecodeAndEncodeAgree :
    (Evaluation.mk 0x3C [.spread, .decompose]).wf = true ∧
      decode [0x3C, 0x01] = .ok (⟨0x3C, [.spread, .decompose]⟩, [0x01]) ∧ (255 < 256 ∧ ¬ 256 < 256) :=
  ⟨rfl, rfl, by decide⟩

theorem witness_StepRunsTheDecodedEvaluation :
    (drivenState 0xC3).host.current = none ∧
      decode (drivenState 0xC3).valueIn.words = .ok (⟨0xC3, [.spread, .decompose]⟩, []) := ⟨rfl, rfl⟩

theorem witness_FetchedWordIsEvaluatedNext : 255 < 256 ∧ 0 < 256 := by decide

theorem witness_StepRefusesOnlyOnTheseGrounds :
    step State.reset = .refused .undefinedInput ∧
      step (atLine .applyUndefined State.reset) = .refused .undefinedInput ∧
      step (atLine (.apply (.lit 256)) State.reset) = .refused .invalidInputRange ∧
      step (atLine (.call (.integer 256) 0 1 2) State.reset) = .refused .invalidInputRange ∧
      step (atLine (.set 0 (.var 7)) State.reset) = .refused (.unsetHostVariable 7) := ⟨rfl, rfl, rfl, rfl, rfl⟩

theorem witness_ApplyStartsASettlingWindow :
    (atLine (.apply (.lit 255)) (settledState 0x3C)).host.current = some (.apply (.lit 255)) ∧
      (HostExpr.lit 255).eval (atLine (.apply (.lit 255)) (settledState 0x3C)).host.vars = .ok (255 : Byte).toNat :=
  ⟨rfl, rfl⟩

theorem witness_WaitSettlesTheBlock :
    (atLine .wait (drivenState 0x3C)).host.current = some .wait ∧
      (atLine .wait (drivenState 0x3C)).valueIn = .driven 0x3C := ⟨rfl, rfl⟩

theorem witness_SettledSampleReadsTheLanes :
    (atLine (.sample 0 1 2) (settledState 0x3C)).Inv ∧ (atLine (.sample 0 1 2) (settledState 0x3C)).status = .settled ∧
      (atLine (.sample 0 1 2) (settledState 0x3C)).valueIn = .driven 0x3C ∧
      (atLine (.sample 0 1 2) (settledState 0x3C)).host.current = some (.sample 0 1 2) :=
  ⟨⟨fun _ => ⟨0x3C, rfl, rfl, rfl, rfl, rfl, rfl⟩, List.Pairwise.nil⟩, rfl, rfl, rfl⟩

theorem witness_SettlingSampleIsADraw :
    (drivenState 0x3C).status = .settling ∧ (atLine (.sample 0 1 2) State.reset).status = .settling ∧
      (atLine (.sample 0 1 2) State.reset).host.current = some (.sample 0 1 2) ∧
      (atLine (.sample 0 1 2) State.reset).valueIn = .undriven := ⟨rfl, rfl, rfl, rfl⟩

theorem witness_CallReturnsTheLanesFromEveryState :
    (atLine (.call (.integer (255 : Byte).toNat) 0 1 2) State.reset).host.current =
      some (.call (.integer (255 : Byte).toNat) 0 1 2) := rfl

theorem witness_CallIsApplyWaitSample : 0 < 256 ∧ 255 < 256 := by decide

theorem witness_OutOfRangeCallIsRefused :
    (atLine (.call (.integer 256) 0 1 2) State.reset).host.current = some (.call (.integer 256) 0 1 2) ∧
      (255 : Int) < 256 ∧
      (atLine (.call (.integer (-1)) 0 1 2) State.reset).host.current = some (.call (.integer (-1)) 0 1 2) ∧
      (-1 : Int) < 0 ∧
      (atLine (.call .notInteger 0 1 2) State.reset).host.current = some (.call .notInteger 0 1 2) :=
  ⟨rfl, by decide, rfl, by decide, rfl⟩

theorem witness_OutOfRangeApplyIsRefused :
    (atLine (.apply (.lit 256)) (drivenState 0x3C)).host.current = some (.apply (.lit 256)) ∧
      (HostExpr.lit 256).eval (atLine (.apply (.lit 256)) (drivenState 0x3C)).host.vars = .ok 256 ∧ 255 < 256 :=
  ⟨rfl, rfl, by decide⟩

theorem witness_SetAndIfActOnTheHostAlone :
    (atLine (.set 0 (.lit 3)) State.reset).host.current = some (.set 0 (.lit 3)) ∧
      (atLine (.ifGoto (.lit 0) 7) State.reset).host.current = some (.ifGoto (.lit 0) 7) ∧
      (atLine (.ifGoto (.lit 1) 7) State.reset).host.current = some (.ifGoto (.lit 1) 7) ∧
      (HostExpr.lit 3).eval [] = .ok 3 ∧ (HostExpr.lit 0).eval [] = .ok 0 ∧ (HostExpr.lit 1).eval [] = .ok 1 :=
  ⟨rfl, rfl, rfl, rfl, rfl, rfl⟩

theorem settle_drivenState (v : Byte) : settle (drivenState v) = .next ((drivenState v).evaluated v) :=
  settle_driven _ v rfl

theorem step_drivenState (v : Byte) : step (drivenState v) = .next ((drivenState v).evaluated v) := by
  rw [step_of_no_line _ rfl, settle_driven _ v rfl]

theorem witness_EveryStepKeepsTheInvariant :
    (drivenState 0x3C).Inv ∧ step (drivenState 0x3C) = .next ((drivenState 0x3C).evaluated 0x3C) ∧
      Moves (drivenState 0x3C) ((drivenState 0x3C).evaluated 0x3C) :=
  ⟨⟨fun h => absurd h (by decide), List.Pairwise.nil⟩, step_drivenState _, .block _ (settle_drivenState _)⟩

theorem witness_SettleIsEnabledWheneverSettling :
    (drivenState 0x3C).status = .settling ∧ (drivenState 0x3C).valueIn = .driven 0x3C ∧
      (drivenState 0x3C).host.current = none ∧ (atLine .wait (drivenState 0x3C)).host.current = some .wait ∧
      (atLine (.set 0 (.lit 1)) (drivenState 0x3C)).host.current = some (.set 0 (.lit 1)) ∧
      HostLine.set 0 (.lit 1) ≠ .wait := by decide

/-- A settling block with the host at a line: the step completes, by the settling or by the line. -/
theorem step_settling_at_line : ∃ t, step (atLine (.set 0 (.lit 1)) (drivenState 0x3C)) = .next t := by
  rw [step_of_line _ (.set 0 (.lit 1)) rfl]
  rcases takeLine_cases (atLine (.set 0 (.lit 1)) (drivenState 0x3C)) (.set 0 (.lit 1)) with e | ⟨-, -, -, e | e⟩ <;>
    rw [e]
  · exact ⟨_, rfl⟩
  · exact ⟨_, rfl⟩
  · exact ⟨_, settle_driven _ 0x3C rfl⟩

theorem witness_StepTakesOneTransition :
    (atLine (.sample 0 1 2) (settledState 0x3C)).host.current = some (.sample 0 1 2) ∧
      (atLine (.sample 0 1 2) (settledState 0x3C)).status = .settled ∧
      (atLine (.set 0 (.lit 1)) State.reset).host.current = some (.set 0 (.lit 1)) ∧
      (atLine (.set 0 (.lit 1)) State.reset).valueIn = .undriven ∧
      step (drivenState 0x3C) = .next ((drivenState 0x3C).evaluated 0x3C) ∧
      ∃ t, step (atLine (.set 0 (.lit 1)) (drivenState 0x3C)) = .next t :=
  ⟨rfl, rfl, rfl, rfl, step_drivenState _, step_settling_at_line⟩

theorem witness_BlockMovesOnlyAsR85Says :
    Moves (drivenState 0x3C) ((drivenState 0x3C).evaluated 0x3C) ∧
      Moves (atLine (.apply (.lit (0xFF : Byte).toNat)) State.reset)
        ((atLine (.apply (.lit (0xFF : Byte).toNat)) State.reset).driveInput 0xFF).nextLine :=
  ⟨.block _ (settle_drivenState _), .host _ _ rfl rfl⟩

theorem witness_LevelsAreNoState :
    step State.reset = .refused .undefinedInput ∧
      step (drivenState 0x3C) = .next ((drivenState 0x3C).evaluated 0x3C) ∧
      ((drivenState 0x3C).evaluated 0x3C).status = .settled ∧ (drivenState 0x3C).status = .settling :=
  ⟨rfl, step_drivenState _, rfl, rfl⟩

theorem witness_NoSettlingBeforeTheFirstInput :
    Reaches State.reset State.reset ∧ State.reset.valueIn = .undriven ∧ State.reset.status = .settling ∧
      Reaches (drivenState 0x3C) ((drivenState 0x3C).evaluated 0x3C) ∧ (drivenState 0x3C).Launched :=
  ⟨.here, rfl, rfl, .further _ _ .here (.block _ (settle_drivenState _)), ⟨0x3C, rfl⟩⟩

theorem witness_SettledOutputsDependOnTheInputAlone :
    (drivenState 0x3C).Inv ∧ (settledState 0x3C).Inv ∧ Reaches (drivenState 0x3C) ((drivenState 0x3C).evaluated 0x3C) ∧
      Reaches (settledState 0x3C) (settledState 0x3C) ∧ ((drivenState 0x3C).evaluated 0x3C).status = .settled ∧
      (settledState 0x3C).status = .settled ∧
      ((drivenState 0x3C).evaluated 0x3C).valueIn = (settledState 0x3C).valueIn :=
  ⟨⟨fun h => absurd h (by decide), List.Pairwise.nil⟩, settledState_inv _, .further _ _ .here (.block _ (settle_drivenState _)), .here,
    rfl, rfl, rfl⟩

theorem witness_NetsAreNotObservable :
    step (drivenState 0x3C) = .next ((drivenState 0x3C).evaluated 0x3C) ∧
      ((drivenState 0x3C).evaluated 0x3C).status = .settled ∧ (drivenState 0x3C).status = .settling :=
  ⟨step_drivenState _, rfl, rfl⟩

/-- Two instances, each with a byte on its port (95_test_vectors.md P5). -/
def twoBlocks : System := [drivenState 0x55, drivenState 0xAA]

theorem witness_InstancesAreIndependent :
    twoBlocks.stepAt 0 = .next [(drivenState 0x55).evaluated 0x55, drivenState 0xAA] ∧ (1 : Nat) ≠ 0 ∧
      twoBlocks.stepTwo 0 1 = .next [(drivenState 0x55).evaluated 0x55, (drivenState 0xAA).evaluated 0xAA] :=
  ⟨rfl, by decide, rfl⟩

/-- An input run that holds `v` for ever. -/
def heldInput (v : Byte) : Timing.InputRun := fun _ => .driven v

/-- An input run that changes from 0x3C to 0xC3 at time 0. -/
def changingInput : Timing.InputRun := fun t => if t < 0 then .driven 0x3C else .driven 0xC3

theorem changingInput_changes : ∀ a < 0, ∃ u, a < u ∧ u < 0 ∧ changingInput u ≠ changingInput 0 :=
  fun a ha => ⟨a / 2, by linarith, by linarith, by
    have h : a / 2 < 0 := by linarith
    simp [changingInput, h]⟩

theorem witness_SettledInTime :
    (0 : ℚ) ≤ 2 ∧ Timing.Shows 2 (heldInput 0x3C) (fun _ => decomposeWord (spreadWord 0x3C)) ∧
      Timing.Holds (heldInput 0x3C) 0x3C 0 3 ∧ (0 : ℚ) + 2 ≤ 2 ∧ (2 : ℚ) ≤ 3 ∧
      (∀ a < 0, ∃ u, a < u ∧ u < 0 ∧ changingInput u ≠ changingInput 0) ∧ (0 : ℚ) ≤ 1 ∧ (1 : ℚ) < 0 + 2 ∧
      (∀ v, ¬ Timing.SettledOn 2 changingInput v 1) := by
  refine ⟨by norm_num, ?_, fun _ _ _ => rfl, by norm_num, by norm_num, changingInput_changes, by norm_num, by norm_num, ?_⟩
  · intro t v h
    have hv := h t (by linarith) le_rfl
    injection hv with hv
    rw [hv]
  · intro v h
    have a := h (-1) (by norm_num) (by norm_num)
    have b := h 1 (by norm_num) le_rfl
    rw [← b] at a
    simp [changingInput] at a

theorem witness_WaitAgreesWithTime :
    (0 : ℚ) ≤ 2 ∧ Timing.Shows 2 (heldInput 0x3C) (fun _ => decomposeWord (spreadWord 0x3C)) ∧
      Timing.SettledOn 2 (heldInput 0x3C) 0x3C 5 ∧
      hostStep (.apply (.lit (0x3C : Byte).toNat)) State.reset = .next (State.reset.driveInput 0x3C).nextLine ∧
      hostStep .wait (State.reset.driveInput 0x3C).nextLine =
        .next (((State.reset.driveInput 0x3C).nextLine).evaluated 0x3C).nextLine := by
  refine ⟨by norm_num, witness_SettledInTime.2.1, fun _ _ _ => rfl, rfl, rfl⟩

end Sys2Proof.Tests
end

section
/-! PROOFS. The invariant along runs of transitions, and that a settled block's levels follow from its present input
(10_state.md R22, 70_reset_and_hazards.md R79, R85). -/

namespace Sys2Proof.Machine

/-- What `Carries` says of the four nets, as one value. -/
theorem State.Carries.nets_eq {s : State} {v : Byte} (h : s.Carries v) :
    s.nets = ⟨stage1 v, stage2 (stage1 v), stage3 (stage2 (stage1 v)), spreadWord v⟩ := by
  rw [← h.expanded, ← h.v3, ← h.v2, ← h.v1]

theorem State.evaluated_carries (s : State) (v : Byte) (h : s.valueIn = .driven v) : (s.evaluated v).Carries v :=
  ⟨h, rfl, rfl, rfl, rfl, rfl⟩

/-- A block that has just settled on its input meets the invariant, whatever levels it had before. -/
theorem State.inv_evaluated (s : State) (v : Byte) (hv : s.valueIn = .driven v) (hw : s.host.vars.wf) :
    (s.evaluated v).Inv :=
  ⟨fun _ => ⟨v, s.evaluated_carries v hv⟩, hw⟩

/-- The invariant says nothing of the levels while the block settles. -/
theorem State.inv_of_settling {s : State} (hs : s.status = .settling) (hw : s.host.vars.wf) : s.Inv :=
  ⟨fun h => absurd (hs.symm.trans h) (by decide), hw⟩

/-- A change of the host and of the supply of free values keeps the invariant when it keeps the host's variables
canonical. -/
theorem State.Inv.of_same_block_levels {s t : State} (h : s.Inv) (hb : t.toBlock = s.toBlock)
    (hl : t.toLevels = s.toLevels) (hw : t.host.vars.wf) : t.Inv := by
  obtain ⟨b, l, u, c⟩ := s
  obtain ⟨b', l', u', c'⟩ := t
  obtain rfl : b' = b := hb
  obtain rfl : l' = l := hl
  refine ⟨fun hs => ?_, hw⟩
  obtain ⟨v, hc⟩ := h.settled hs
  exact ⟨v, hc.input, hc.v1, hc.v2, hc.v3, hc.expanded, hc.lanes⟩

theorem State.wf_keepSample (s : State) (l : Lanes) (r0 r1 r2 : HostVar) (h : s.host.vars.wf) :
    (s.keepSample l r0 r1 r2).host.vars.wf :=
  HostVars.put_wf _ _ _ (HostVars.put_wf _ _ _ (HostVars.put_wf _ _ _ h))

@[simp] theorem State.afterSample_toLevels (s : State) : s.afterSample.toLevels = s.toLevels := by
  unfold State.afterSample; split <;> rfl

theorem settle_keeps_inv {s t : State} (hi : s.Inv) (h : settle s = .next t) : t.Inv := by
  obtain ⟨v, hv, rfl⟩ := settle_eq_next s t h
  exact s.inv_evaluated v hv hi.vars

theorem hostStep_keeps_inv {s t : State} {l : HostLine} (hi : s.Inv) (h : hostStep l s = .next t) : t.Inv := by
  rcases hostStep_eq_next s t l h with
    ⟨_, v, -, -, rfl⟩ | ⟨v, -, hv, rfl⟩ | ⟨r0, r1, r2, -, rfl⟩ | ⟨r, _, n, -, -, rfl⟩ | ⟨_, k, n, -, -, rfl⟩ |
    ⟨v, r0, r1, r2, -, rfl⟩
  · exact State.inv_of_settling rfl hi.vars
  · exact (s.inv_evaluated v hv hi.vars).of_same_block_levels rfl rfl hi.vars
  · exact hi.of_same_block_levels s.afterSample_toBlock s.afterSample_toLevels
      (s.afterSample.wf_keepSample _ r0 r1 r2 (s.afterSample_host ▸ hi.vars))
  · exact hi.of_same_block_levels rfl rfl (HostVars.put_wf _ r n hi.vars)
  · split <;> exact hi.of_same_block_levels rfl rfl hi.vars
  · exact ((s.driveInput v).inv_evaluated v rfl hi.vars).of_same_block_levels rfl rfl
      (((s.driveInput v).evaluated v).wf_keepSample _ r0 r1 r2 hi.vars)

theorem Moves.keeps_inv {s t : State} (h : Moves s t) (hi : s.Inv) : t.Inv := by
  cases h with
  | block _ h => exact settle_keeps_inv hi h
  | host l _ _ h => exact hostStep_keeps_inv hi h
  | draw => exact hi.of_same_block_levels rfl rfl hi.vars

theorem Reaches.keeps_inv {s t : State} (h : Reaches s t) (hi : s.Inv) : t.Inv := by
  induction h with
  | here => exact hi
  | further _ _ _ hm ih => exact hm.keeps_inv ih

/-- In a settled state with the invariant every level is a function of the present input (R22). -/
theorem State.Inv.carries_of_settled {s : State} {v : Byte} (hi : s.Inv) (hs : s.status = .settled)
    (hv : s.valueIn = .driven v) : s.Carries v := by
  obtain ⟨w, hc⟩ := hi.settled hs
  obtain rfl : w = v := PortLevel.driven.inj (hc.input.symm.trans hv)
  exact hc

/-- Settles O40: every run keeps the invariant, and in a settled state with the invariant the input fixes all the levels. -/
theorem settledOutputsDependOnTheInputAlone : Obligations.SettledOutputsDependOnTheInputAlone := by
  unfold Obligations.SettledOutputsDependOnTheInputAlone
  intro s s' t t' hi hi' hr hr' hs hs' hv
  obtain ⟨v, hc⟩ := (hr.keeps_inv hi).settled hs
  have hc' : t'.Carries v := (hr'.keeps_inv hi').carries_of_settled hs' (hv.symm.trans hc.input)
  exact ⟨hc.lanes.trans hc'.lanes.symm, hc.nets_eq.trans hc'.nets_eq.symm⟩

end Sys2Proof.Machine
end

section
/-! PROOFS. The levels on nets and lane ports are no state of the machine (10_state.md R13, R19): a transition drives all of
them afresh, or hands them on untouched together with the block's machine state. -/

namespace Sys2Proof.Machine

/-- The state with other levels on the nets and the lane ports. -/
def State.withLevels (s : State) (l : Levels) : State := { s with toLevels := l }

@[simp] theorem State.withLevels_toBlock (s : State) (l : Levels) : (s.withLevels l).toBlock = s.toBlock := rfl
@[simp] theorem State.withLevels_toLevels (s : State) (l : Levels) : (s.withLevels l).toLevels = l := rfl
@[simp] theorem State.withLevels_toSupply (s : State) (l : Levels) : (s.withLevels l).toSupply = s.toSupply := rfl
@[simp] theorem State.withLevels_host (s : State) (l : Levels) : (s.withLevels l).host = s.host := rfl

/-- The outcome with other levels in its next state, if it has one. -/
def Result.withLevels (o : Result) (l : Levels) : Result :=
  match o with
  | .next t => .next (t.withLevels l)
  | .fault r => .fault r
  | .refused r => .refused r

/-- From `s` the transition `f` does not depend on the levels: with the levels `l` in their place its outcome is the very
same, or it is the same but for the levels, which `f` then hands on together with the block's machine state. -/
def LevelBlind (f : State → Result) (s : State) (l : Levels) : Prop :=
  f (s.withLevels l) = f s ∨
    (f (s.withLevels l) = (f s).withLevels l ∧ ∀ t, f s = .next t → t.toBlock = s.toBlock ∧ t.toLevels = s.toLevels)

/-- Two transitions that answer alike, with either levels, are level-blind alike. -/
theorem LevelBlind.congr {f g : State → Result} {s : State} {l : Levels} (h : f s = g s)
    (h' : f (s.withLevels l) = g (s.withLevels l)) (hg : LevelBlind g s l) : LevelBlind f s l := by
  rwa [LevelBlind, h, h']

/-- A transition that completes, and hands the levels on. -/
theorem LevelBlind.of_next {f : State → Result} {s t : State} {l : Levels} (h : f s = .next t)
    (h' : f (s.withLevels l) = .next (t.withLevels l)) (hb : t.toBlock = s.toBlock) (hl : t.toLevels = s.toLevels) :
    LevelBlind f s l := by
  refine .inr ⟨by rw [h', h]; rfl, fun u hu => ?_⟩
  obtain rfl : t = u := Host.Outcome.next.inj (h.symm.trans hu)
  exact ⟨hb, hl⟩

/-- Settling drives every net and lane, so it forgets the levels that were there. -/
theorem settle_withLevels (s : State) (l : Levels) : settle (s.withLevels l) = settle s := by
  cases hv : s.valueIn with
  | undriven => rw [settle_undriven s hv, settle_undriven (s.withLevels l) hv]
  | driven v => rw [settle_driven s v hv, settle_driven (s.withLevels l) v hv]; rfl

theorem State.afterSample_withLevels (s : State) (l : Levels) :
    (s.withLevels l).afterSample = s.afterSample.withLevels l := by
  unfold State.afterSample
  rw [State.withLevels_toBlock]
  split <;> rfl

theorem hostStep_levelBlind (line : HostLine) (s : State) (l : Levels) : LevelBlind (hostStep line) s l := by
  cases line with
  | apply e => exact .inl rfl
  | applyUndefined => exact .inl rfl
  | wait => exact .inl (by simp only [hostStep, hostWait, settle_withLevels])
  | sample r0 r1 r2 =>
    refine .of_next rfl ?_ s.afterSample_toBlock s.afterSample_toLevels
    simp only [hostStep, hostSample, State.afterSample_withLevels]
    rfl
  | set r e =>
    cases he : e.eval s.host.vars with
    | error q => exact .inl ((withExpr_error (s.withLevels l) e _ q he).trans (withExpr_error s e _ q he).symm)
    | ok n => exact .of_next (withExpr_ok s e _ n he) (withExpr_ok (s.withLevels l) e _ n he) rfl rfl
  | ifGoto c k =>
    cases he : c.eval s.host.vars with
    | error q => exact .inl ((withExpr_error (s.withLevels l) c _ q he).trans (withExpr_error s c _ q he).symm)
    | ok n =>
      by_cases hn : n = 0
      · exact .of_next ((withExpr_ok s c _ n he).trans (if_pos hn))
          ((withExpr_ok (s.withLevels l) c _ n he).trans (if_pos hn)) rfl rfl
      · exact .of_next ((withExpr_ok s c _ n he).trans (if_neg hn))
          ((withExpr_ok (s.withLevels l) c _ n he).trans (if_neg hn)) rfl rfl
  | call a r0 r1 r2 => exact .inl (by cases a <;> rfl)

/-- While the block may settle before a line, a free value says whether the step is the settling or the line. -/
theorem takeLine_of_blocks_turn (s : State) (line : HostLine) (h : s.maySettleBefore line = true) :
    takeLine line s = if Config.settlesFirst s.stream s.draws then settle s.drawn else hostStep line s.drawn :=
  if_pos h

theorem takeLine_levelBlind (line : HostLine) (s : State) (l : Levels) : LevelBlind (takeLine line) s l := by
  cases h : s.maySettleBefore line with
  | false =>
    exact .congr (takeLine_of_hosts_turn s line h) (takeLine_of_hosts_turn (s.withLevels l) line h)
      (hostStep_levelBlind line s l)
  | true =>
    have e := takeLine_of_blocks_turn s line h
    have e' := takeLine_of_blocks_turn (s.withLevels l) line h
    by_cases hf : Config.settlesFirst s.stream s.draws = true
    · exact .congr (g := fun u => settle u.drawn) (e.trans (if_pos hf)) (e'.trans (if_pos hf))
        (.inl (settle_withLevels s.drawn l))
    · exact .congr (g := fun u => hostStep line u.drawn) (e.trans (if_neg hf)) (e'.trans (if_neg hf))
        (hostStep_levelBlind line s.drawn l)

theorem step_levelBlind (s : State) (l : Levels) : LevelBlind step s l := by
  cases hc : s.host.current with
  | none =>
    exact .congr (step_of_no_line s hc) (step_of_no_line (s.withLevels l) hc) (.inl (settle_withLevels s l))
  | some line =>
    exact .congr (step_of_line s line hc) (step_of_line (s.withLevels l) line hc) (takeLine_levelBlind line s l)

/-- Settles O49: the step drives all the levels afresh, or hands them on and leaves the block's machine state as it was,
so that it has not settled it. -/
theorem levelsAreNoState : Obligations.LevelsAreNoState := by
  unfold Obligations.LevelsAreNoState
  intro s l
  change (∀ r, step s = .refused r → step (s.withLevels l) = .refused r) ∧
    ∀ t, step s = .next t → ∃ t', step (s.withLevels l) = .next t' ∧ _
  rcases step_levelBlind s l with h | ⟨h, hkeep⟩
  · rw [h]
    exact ⟨fun _ hr => hr, fun t ht => ⟨t, ht, rfl, rfl, rfl, fun _ _ => rfl⟩⟩
  · rw [h]
    refine ⟨fun r hr => by rw [hr]; rfl, fun t ht => ⟨t.withLevels l, by rw [ht]; rfl, rfl, rfl, rfl, fun ht' hs => ?_⟩⟩
    have hstatus : t.status = s.status := congrArg Block.status (hkeep t ht).1
    rw [hstatus, hs] at ht'
    cases ht'

end Sys2Proof.Machine
end

section
/-! PROOFS. The host's own lines, SET and IF ... GOTO, and an APPLY out of range (30_encoding.md R42, R43): what each does
from any state whose expression has a value, and so what the step at it ends in, whether or not the block settles first
(70_reset_and_hazards.md R85). -/

namespace Sys2Proof.Machine

/-- A host line ends in whatever it does from every state with this host and this input: the block's settling, which may
come before it, changes neither. -/
theorem State.lineEnds_of_hostStep {s : State} {l : HostLine} {P : Host.Outcome State Fault Refusal → Prop}
    (hl : s.host.current = some l)
    (h : ∀ u : State, u.host = s.host → u.valueIn = s.valueIn → P (hostStep l u)) : s.LineEnds P := by
  rcases takeLine_cases s l with e | ⟨-, -, ⟨v, hv⟩, e | e⟩ <;> rw [← step_of_line s l hl] at e
  · exact .inl (e ▸ h s rfl rfl)
  · exact .inl (e ▸ h s.drawn rfl rfl)
  · have hline : step (s.drawn.evaluated v) = hostStep l (s.drawn.evaluated v) :=
      (step_of_line (s.drawn.evaluated v) l hl).trans (takeLine_of_settled (s.drawn.evaluated v) l rfl)
    exact .inr ⟨s.drawn.evaluated v, e.trans (settle_driven s.drawn v hv), rfl, rfl, hline ▸ h _ rfl rfl⟩

theorem hostStep_set_of_eval {s : State} {e : HostExpr} {n : Nat} (r : HostVar) (he : e.eval s.host.vars = .ok n) :
    hostStep (.set r e) s = .next (s.setVar r n).nextLine :=
  withExpr_ok s e _ n he

theorem hostStep_ifGoto_of_eval {s : State} {c : HostExpr} {n : Nat} (k : Nat) (hc : c.eval s.host.vars = .ok n) :
    hostStep (.ifGoto c k) s = .next (s.goto (if n = 0 then s.host.line + 1 else k)) := by
  refine (withExpr_ok s c _ n hc).trans ?_
  split <;> rfl

theorem hostStep_apply_of_outside {s : State} {e : HostExpr} {n : Nat} (he : e.eval s.host.vars = .ok n)
    (hn : 255 < n) : hostStep (.apply e) s = .refused .invalidInputRange :=
  (withExpr_ok s e _ n he).trans (withByte_of_outside n _ (.inr (by omega)))

/-- Settles O36: SET writes one variable and IF moves to a line, from every state whose host gives the expression its value,
so also from the one the block's settling leaves. -/
theorem setAndIfActOnTheHostAlone : Obligations.SetAndIfActOnTheHostAlone := by
  unfold Obligations.SetAndIfActOnTheHostAlone
  constructor
  · intro s r e n he
    refine ⟨_, hostStep_set_of_eval r he, rfl, rfl, rfl, fun q => HostVars.get_put s.host.vars r q n, fun hl => ?_⟩
    refine State.lineEnds_of_hostStep hl fun u hu hv => ⟨_, hostStep_set_of_eval r (hu ▸ he), ?_, hv⟩
    simp [hu]
  · intro s c k n hc
    refine ⟨_, hostStep_ifGoto_of_eval k hc, rfl, fun hl => ?_⟩
    refine State.lineEnds_of_hostStep hl fun u hu hv => ⟨_, hostStep_ifGoto_of_eval k (hu ▸ hc), ?_, hv⟩
    simp [hu]

/-- Settles O45: the line is refused from every state whose host gives the expression that number, so also from the one the
block's settling leaves. -/
theorem outOfRangeApplyIsRefused : Obligations.OutOfRangeApplyIsRefused := by
  unfold Obligations.OutOfRangeApplyIsRefused
  intro s e n he hn
  exact ⟨hostStep_apply_of_outside he hn, fun hl =>
    State.lineEnds_of_hostStep hl fun u hu _ => hostStep_apply_of_outside (hu ▸ he) hn⟩

end Sys2Proof.Machine
end

section
/-! PROOFS. STG1 to STG4 and SPREAD (40_spread.md R44 to R49, R54). The one idea is R47's "no carry collisions": on a word
that meets a mask which its own shifted copy misses, a multiplication by `2 ^ k + 1` is an OR with the shifted copy, so that
each net's bits can be read off. -/

namespace Sys2Proof.Machine

/-! ### Multiplying without a carry, on numbers -/

/-- No carry arises where two numbers share no bit. -/
theorem add_eq_or_of_and_eq_zero (a b : Nat) (h : a &&& b = 0) : a + b = a ||| b := by
  induction a using Nat.strongRecOn generalizing b with
  | ind a ih =>
    rcases Nat.eq_zero_or_pos a with rfl | ha
    · simp
    · have high : a / 2 + b / 2 = a / 2 ||| b / 2 := ih (a / 2) (by omega) (b / 2) (by rw [← Nat.and_div_two, h])
      have low : ¬(a % 2 = 1 ∧ b % 2 = 1) := by rw [← Nat.and_mod_two_eq_one, h]; decide
      have orLow := Nat.or_mod_two_eq_one (a := a) (b := b)
      have orHigh := Nat.or_div_two (a := a) (b := b)
      omega

/-- A number that meets a mask shares no bit with its shifted copy, when the mask shares none with its own. -/
theorem and_shiftLeft_eq_zero_of_mask {x m k : Nat} (hx : x &&& m = x) (hm : m &&& (m <<< k) = 0) :
    x &&& (x <<< k) = 0 :=
  calc x &&& (x <<< k)
      = (x &&& m) &&& ((x &&& m) <<< k) := by rw [hx]
    _ = (x &&& (x <<< k)) &&& (m &&& (m <<< k)) := by
        rw [Nat.shiftLeft_and_distrib, Nat.and_assoc, Nat.and_assoc, Nat.and_left_comm m]
    _ = 0 := by rw [hm, Nat.and_zero]

theorem mul_two_pow_add_one_eq_or {x m : Nat} (k : Nat) (hx : x &&& m = x) (hm : m &&& (m <<< k) = 0) :
    x * (2 ^ k + 1) = x ||| (x <<< k) := by
  rw [← add_eq_or_of_and_eq_zero x (x <<< k) (and_shiftLeft_eq_zero_of_mask hx hm), Nat.shiftLeft_eq]
  ring

/-- `x * 7` is `x * 3` and a copy of `x` shifted by 2; where `x` meets STG3's mask neither addition has a carry. -/
theorem mul_seven_eq_or {x : Nat} (hx : x &&& 0x249249 = x) : x * 7 = x ||| (x <<< 1) ||| (x <<< 2) := by
  have h3 : x * 3 = x ||| (x <<< 1) := mul_two_pow_add_one_eq_or 1 hx (by decide)
  have disjoint : (x ||| (x <<< 1)) &&& (x <<< 2) = 0 := by
    have shifted : x <<< 1 &&& x <<< 2 = (x &&& x <<< 1) <<< 1 := by
      rw [Nat.shiftLeft_and_distrib, ← Nat.shiftLeft_add]
    rw [Nat.and_or_distrib_right, shifted, and_shiftLeft_eq_zero_of_mask hx (by decide),
      and_shiftLeft_eq_zero_of_mask hx (by decide)]
    rfl
  rw [← add_eq_or_of_and_eq_zero _ _ disjoint, ← h3, Nat.shiftLeft_eq]
  ring

/-! ### The bits that each stage drives -/

theorem stage1_meets_mask (v : Byte) : (stage1 v).toNat &&& 0xF00F = (stage1 v).toNat := by
  rw [stage1_toNat, Nat.and_assoc, Nat.and_self]

theorem stage2_meets_mask (x : NetV1) : (stage2 x).toNat &&& 0x0C30C3 = (stage2 x).toNat := by
  rw [stage2_toNat, Nat.and_assoc, Nat.and_self]

theorem stage3_meets_mask (x : NetV2) : (stage3 x).toNat &&& 0x249249 = (stage3 x).toNat := by
  rw [stage3_toNat, Nat.and_assoc, Nat.and_self]

/-- The bits of a product that is an OR of two copies. -/
theorem testBit_masked_or_shiftLeft (x k m j : Nat) :
    ((x ||| (x <<< k)) &&& m).testBit j =
      ((x.testBit j || (decide (k ≤ j) && x.testBit (j - k))) && m.testBit j) := by
  rw [Nat.testBit_and, Nat.testBit_or, Nat.testBit_shiftLeft]

theorem stage1_getLsbD (v : Byte) (j : Nat) :
    (stage1 v).getLsbD j =
      ((v.getLsbD j || (decide (8 ≤ j) && v.getLsbD (j - 8))) && (0xF00F).testBit j) := by
  have byte : v.toNat &&& 0xFF = v.toNat := (Nat.and_two_pow_sub_one_eq_mod _ 8).trans (Nat.mod_eq_of_lt v.isLt)
  have noCarry : v.toNat * 0x101 = v.toNat ||| (v.toNat <<< 8) := mul_two_pow_add_one_eq_or 8 byte (by decide)
  rw [← BitVec.testBit_toNat, stage1_toNat, noCarry]
  exact testBit_masked_or_shiftLeft ..

theorem stage2_getLsbD {x : NetV1} (hx : x.toNat &&& 0xF00F = x.toNat) (j : Nat) :
    (stage2 x).getLsbD j =
      ((x.getLsbD j || (decide (4 ≤ j) && x.getLsbD (j - 4))) && (0x0C30C3).testBit j) := by
  have noCarry : x.toNat * 0x11 = x.toNat ||| (x.toNat <<< 4) := mul_two_pow_add_one_eq_or 4 hx (by decide)
  rw [← BitVec.testBit_toNat, stage2_toNat, noCarry]
  exact testBit_masked_or_shiftLeft ..

theorem stage3_getLsbD {x : NetV2} (hx : x.toNat &&& 0x0C30C3 = x.toNat) (j : Nat) :
    (stage3 x).getLsbD j =
      ((x.getLsbD j || (decide (2 ≤ j) && x.getLsbD (j - 2))) && (0x249249).testBit j) := by
  have noCarry : x.toNat * 5 = x.toNat ||| (x.toNat <<< 2) := mul_two_pow_add_one_eq_or 2 hx (by decide)
  rw [← BitVec.testBit_toNat, stage3_toNat, noCarry]
  exact testBit_masked_or_shiftLeft ..

/-- STG4's product fits on every net that meets STG3's mask, reachable or not (R50). -/
theorem mul_seven_le_of_mask {x : Nat} (hx : x &&& 0x249249 = x) : x * 7 ≤ 0xFFFFFF := by
  have hle : x ≤ 0x249249 := hx ▸ Nat.and_le_right
  omega

theorem stage4_toNat_of_mask {x : NetV3} (hx : x.toNat &&& 0x249249 = x.toNat) :
    (stage4 x).toNat = x.toNat * 7 :=
  stage4_toNat_of_fits x (Nat.lt_of_le_of_lt (mul_seven_le_of_mask hx) (by decide))

theorem stage4_getLsbD {x : NetV3} (hx : x.toNat &&& 0x249249 = x.toNat) (j : Nat) :
    (stage4 x).getLsbD j =
      (x.getLsbD j || (decide (1 ≤ j) && x.getLsbD (j - 1)) || (decide (2 ≤ j) && x.getLsbD (j - 2))) := by
  rw [← BitVec.testBit_toNat, stage4_toNat_of_mask hx, mul_seven_eq_or hx, Nat.testBit_or, Nat.testBit_or,
    Nat.testBit_shiftLeft, Nat.testBit_shiftLeft]
  rfl

/-- What the first three stages in series drive: bit i of the input alone at position 3i (R46). The 22 positions of the net
are gone through one by one, since the positions a bit passes on its way are those of two masks. -/
theorem stage3_series_getLsbD (v : Byte) (j : Nat) :
    (stage3 (stage2 (stage1 v))).getLsbD j = (decide (j % 3 = 0) && v.getLsbD (j / 3)) := by
  by_cases hj : j < 22
  · rw [stage3_getLsbD (stage2_meets_mask _)]
    simp only [stage2_getLsbD (stage1_meets_mask _), stage1_getLsbD]
    interval_cases j <;> simp [Nat.testBit]
  · rw [BitVec.getLsbD_of_ge _ _ (by omega)]
    by_cases h3 : j % 3 = 0
    · rw [BitVec.getLsbD_of_ge v _ (by omega), Bool.and_false]
    · simp [h3]

/-- The bit-run law (R49): of the three copies that STG4 makes, the one that reaches position j is copy `j % 3`. -/
theorem spreadWord_getLsbD (v : Byte) (j : Nat) : (spreadWord v).getLsbD j = v.getLsbD (j / 3) := by
  rw [spreadWord, stage4_getLsbD (stage3_meets_mask _)]
  simp only [stage3_series_getLsbD, ← Bool.and_assoc, ← Bool.decide_and]
  obtain h | h | h : j % 3 = 0 ∨ j % 3 = 1 ∨ j % 3 = 2 := by omega
  · have h1 : ¬(1 ≤ j ∧ (j - 1) % 3 = 0) := by omega
    have h2 : ¬(2 ≤ j ∧ (j - 2) % 3 = 0) := by omega
    simp [h, h1, h2]
  · have h1 : 1 ≤ j ∧ (j - 1) % 3 = 0 := by omega
    have h2 : ¬(2 ≤ j ∧ (j - 2) % 3 = 0) := by omega
    have run : (j - 1) / 3 = j / 3 := by omega
    simp [h, h1, h2, run]
  · have h1 : ¬(1 ≤ j ∧ (j - 1) % 3 = 0) := by omega
    have h2 : 2 ≤ j ∧ (j - 2) % 3 = 0 := by omega
    have run : (j - 2) / 3 = j / 3 := by omega
    simp [h, h1, h2, run]

theorem spreadWord_getLsbD_run (v : Byte) (i : Nat) {k : Nat} (hk : k < 3) :
    (spreadWord v).getLsbD (3 * i + k) = v.getLsbD i := by
  rw [spreadWord_getLsbD, Nat.mul_add_div (by decide), Nat.div_eq_of_lt hk, Nat.add_zero]

theorem spreadWord_extractLsb' (v : Byte) (i : Nat) :
    (spreadWord v).extractLsb' (3 * i) 3 = (BitVec.ofBool (v.getLsbD i)).replicate 3 := by
  refine BitVec.eq_of_getLsbD_eq fun k hk => ?_
  rw [BitVec.getLsbD_extractLsb', spreadWord_getLsbD_run v i hk, BitVec.getLsbD_replicate]
  simp [hk, Nat.mod_one]

theorem spreadWord_zero : spreadWord 0x00 = 0x000000 := by decide

theorem spreadWord_allOnes : spreadWord 0xFF = 0xFFFFFF := by decide

/-! ### What the operations do -/

theorem exec_stg1_driven {s : State} {v : Byte} (h : s.valueIn = .driven v) :
    exec .stg1 s = .next { s with nets := { s.nets with v1 := stage1 v } } :=
  withInput_driven s v _ h

theorem exec_stg2 (s : State) : exec .stg2 s = .next { s with nets := { s.nets with v2 := stage2 s.nets.v1 } } := rfl

theorem exec_stg3 (s : State) : exec .stg3 s = .next { s with nets := { s.nets with v3 := stage3 s.nets.v2 } } := rfl

theorem exec_stg4 (s : State) :
    exec .stg4 s = .next { s with nets := { s.nets with expanded := stage4 s.nets.v3 } } := rfl

/-- The four stages in series do what SPREAD does (R48), the refusal of an undriven input included. -/
theorem runOps_stages_eq_exec_spread (s : State) : runOps [.stg1, .stg2, .stg3, .stg4] s = exec .spread s := by
  cases hv : s.valueIn with
  | undriven =>
    have refused (f : Byte → Result) : withInput s f = .refused .undefinedInput := withInput_undriven s f hv
    simp only [runOps, exec, execStg1, execSpread, refused, Result.andThen_refused]
  | driven v =>
    rw [exec_spread_driven s v hv]
    simp only [runOps, exec_stg1_driven hv, exec_stg2, exec_stg3, exec_stg4, Result.andThen_next]
    rfl

/-! ### The obligations -/

/-- Settles O3: the product is an OR of two copies on every masked net, and `stage3_series_getLsbD` gives the bits. -/
theorem stg3IsolatesEachBit : Obligations.Stg3IsolatesEachBit := by
  unfold Obligations.Stg3IsolatesEachBit
  refine ⟨rfl, fun s => ⟨_, exec_stg3 s, stage3_toNat _, fun v hv => ?_, fun hmask => ?_, ?_, ?_, fun h => ?_⟩⟩
  · have hv2 : s.nets.v2 = stage2 (stage1 v) :=
      BitVec.eq_of_toNat_eq (by rw [hv, stage2_toNat, stage1_toNat])
    rw [hv2]
    exact ⟨fun i _ => by simp [stage3_series_getLsbD], fun j hj => by simp [stage3_series_getLsbD, hj]⟩
  · have hx : s.nets.v2.toNat &&& 0x0C30C3 = s.nets.v2.toNat := congrArg BitVec.toNat hmask
    have hle : s.nets.v2.toNat ≤ 0x0C30C3 := hx ▸ Nat.and_le_right
    exact ⟨and_shiftLeft_eq_zero_of_mask hx (by decide), mul_two_pow_add_one_eq_or 2 hx (by decide), by omega⟩
  · simp [BitVec.getLsbD_of_ge]
  · simp [BitVec.getLsbD_of_ge]
  · rw [h]; decide

/-- Settles O4: STG4's product is an OR of three copies on every masked net; after the stages before it is `spreadWord`. -/
theorem stg4ReplicatesEachBit : Obligations.Stg4ReplicatesEachBit := by
  unfold Obligations.Stg4ReplicatesEachBit
  refine ⟨rfl, fun s => ⟨_, exec_stg4 s, stage4_toNat_of_fits _, fun hmask => ?_, fun v hv i _ => ?_, fun h => ?_,
    fun h => ?_⟩⟩
  · have hx : s.nets.v3.toNat &&& 0x249249 = s.nets.v3.toNat := congrArg BitVec.toNat hmask
    exact ⟨stage4_toNat_of_mask hx, mul_seven_eq_or hx, mul_seven_le_of_mask hx⟩
  · have hv3 : s.nets.v3 = stage3 (stage2 (stage1 v)) :=
      BitVec.eq_of_toNat_eq (by rw [hv, stage3_toNat, stage2_toNat, stage1_toNat])
    rw [hv3]
    exact spreadWord_extractLsb' v i
  · rw [h]; decide
  · rw [h]; decide

/-- Settles O5: SPREAD's next state is the stages' by `runOps_stages_eq_exec_spread`, and each net is its stage's number. -/
theorem spreadIsTheFourStagesInSeries : Obligations.SpreadIsTheFourStagesInSeries := by
  unfold Obligations.SpreadIsTheFourStagesInSeries
  refine ⟨rfl, fun s v hv => ⟨_, exec_spread_driven s v hv,
    (runOps_stages_eq_exec_spread s).trans (exec_spread_driven s v hv), stage1_toNat v, stage2_toNat _, stage3_toNat _,
    stage4_toNat_after_stage3 _, fun h => ?_, fun h => ?_, fun h => ?_⟩⟩
  · exact h ▸ spreadWord_zero
  · exact h ▸ spreadWord_allOnes
  · rw [h]; decide

/-- Settles O6, by the bit-run law `spreadWord_getLsbD` for the word that SPREAD drives. -/
theorem spreadFillsBitRuns : Obligations.SpreadFillsBitRuns := by
  unfold Obligations.SpreadFillsBitRuns
  intro s v hv
  exact ⟨_, exec_spread_driven s v hv, fun j _ => spreadWord_getLsbD v j,
    fun i _ => ⟨spreadWord_getLsbD_run v i (k := 0) (by decide), spreadWord_getLsbD_run v i (by decide),
      spreadWord_getLsbD_run v i (by decide)⟩,
    fun j hj => BitVec.getLsbD_of_ge _ j hj⟩

/-- Settles O7: the expanded word that SPREAD drives is `spreadWord` of the input. -/
theorem spreadBoundaryValues : Obligations.SpreadBoundaryValues := by
  unfold Obligations.SpreadBoundaryValues
  exact fun s => ⟨fun h => ⟨_, exec_spread_driven s 0 h, spreadWord_zero⟩,
    fun h => ⟨_, exec_spread_driven s 255 h, spreadWord_allOnes⟩⟩

end Sys2Proof.Machine
end

section
/-! PROOFS. DECOMPOSE and the lanes of a settled block (41_decompose.md R56, R57, R60): each lane is an 8-bit slice of the
expanded word, so what is read off a slice as a number, as a bit and next to the other two gives the rest. -/

namespace Sys2Proof.Machine

/-! ### The 8-bit slices of the expanded word -/

/-- A slice at bit `k` is the word shifted down and masked, R56's pseudocode. -/
theorem extractLsb'_byte_toNat (e : Expanded) (k : Nat) : (e.extractLsb' k 8).toNat = (e.toNat >>> k) &&& 0xFF := by
  rw [BitVec.extractLsb'_toNat]
  exact (Nat.and_two_pow_sub_one_eq_mod _ 8).symm

/-- Above bit 16 a 24-bit word has 8 bits only, so that the mask of the top lane has nothing to clear (R56). -/
theorem extractLsb'_topByte_toNat (e : Expanded) : (e.extractLsb' 16 8).toNat = e.toNat >>> 16 := by
  have hlt : e.toNat >>> 16 < 2 ^ 8 := by rw [Nat.shiftRight_eq_div_pow]; omega
  rw [BitVec.extractLsb'_toNat, Nat.mod_eq_of_lt hlt]

/-- The three slices in a row are the word (R60). -/
theorem append_extractLsb'_bytes (e : Expanded) :
    e.extractLsb' 16 8 ++ e.extractLsb' 8 8 ++ e.extractLsb' 0 8 = e := by
  rw [BitVec.extractLsb'_append_extractLsb'_eq_extractLsb' (by decide),
    BitVec.extractLsb'_append_extractLsb'_eq_extractLsb' (by decide)]
  exact BitVec.extractLsb'_eq_self

/-- R57's worked value. -/
theorem decomposeWord_spreadWord_A5 : decomposeWord (spreadWord 0xA5) = ⟨0xC7, 0x81, 0xE3⟩ := by decide

/-! ### What DECOMPOSE and settling do -/

theorem exec_decompose (s : State) :
    exec .decompose s = .next { s with lanes := decomposeWord s.nets.expanded } := rfl

/-- A settled block's lanes are the three slices of the word that SPREAD drives (R56, R57). -/
theorem State.evaluated_lanes_eq_slices (s : State) (v : Byte) :
    (s.evaluated v).lanes =
      ⟨(spreadWord v).extractLsb' 0 8, (spreadWord v).extractLsb' 8 8, (spreadWord v).extractLsb' 16 8⟩ :=
  decomposeWord_eq_slices (spreadWord v)

/-! ### The obligations -/

/-- Settles O13: DECOMPOSE's lanes are the three slices, and a slice is the shifted and masked word. -/
theorem decomposeSlicesTheWord : Obligations.DecomposeSlicesTheWord := by
  unfold Obligations.DecomposeSlicesTheWord
  refine ⟨rfl, fun s => ⟨_, _, _, (exec_decompose s).trans (by rw [decomposeWord_eq_slices]),
    extractLsb'_byte_toNat _ 0, extractLsb'_byte_toNat _ 8, extractLsb'_byte_toNat _ 16, extractLsb'_topByte_toNat _,
    rfl, rfl, rfl, fun h => ?_, fun h => ?_, fun h => ?_⟩⟩
  · rw [h]; decide
  · rw [h]; decide
  · rw [h]; decide

/-- Settles O14: both ways end in `State.evaluated`'s nets and lanes. -/
theorem lanesAreDecomposeOfSpread : Obligations.LanesAreDecomposeOfSpread := by
  unfold Obligations.LanesAreDecomposeOfSpread
  intro s v hv
  refine ⟨_, _, exec_spread_driven s v hv, exec_decompose _, settle_driven s v hv, fun h => ?_⟩
  exact h ▸ decomposeWord_spreadWord_A5

/-- Settles O16: a sample is `Block.sample` of the block and a draw, neither of which is a net; a settled block's lanes are
the slices of the word that SPREAD drives, and the slices in a row are that word. -/
theorem lanesGiveTheExpandedWordBack : Obligations.LanesGiveTheExpandedWordBack := by
  unfold Obligations.LanesGiveTheExpandedWordBack
  refine ⟨fun _ _ => rfl, fun s v hv => ⟨_, _, settle_driven s v hv, exec_spread_driven s v hv, ?_⟩⟩
  rw [s.evaluated_lanes_eq_slices v]
  refine ⟨append_extractLsb'_bytes (spreadWord v), fun j hj => ?_⟩
  simp [hj, Nat.add_comm]

end Sys2Proof.Machine
end

section
/-! PROOFS. No fault and no refusal of the block's own but the missing launch premise (60_exceptions.md R63, R64, R75): what
an operation and the settling can end in is said once, and a call's range is checked at the boundary before either. -/

namespace Sys2Proof.Machine

theorem withInput_cases (s : State) (f : Byte → State) :
    (∃ t, (withInput s fun v => .next (f v)) = .next t) ∨
    (s.valueIn = .undriven ∧ (withInput s fun v => .next (f v)) = .refused .undefinedInput) := by
  cases hv : s.valueIn with
  | undriven => exact .inr ⟨rfl, withInput_undriven s _ hv⟩
  | driven v => exact .inl ⟨f v, withInput_driven s v _ hv⟩

/-- All that an operation can end in: only those that read the port can be refused, and for one reason. -/
theorem exec_cases (i : Instr) (s : State) :
    (∃ t, exec i s = .next t) ∨ (s.valueIn = .undriven ∧ exec i s = .refused .undefinedInput) := by
  cases i with
  | stg1 => exact withInput_cases s _
  | stg2 => exact .inl ⟨_, exec_stg2 s⟩
  | stg3 => exact .inl ⟨_, exec_stg3 s⟩
  | stg4 => exact .inl ⟨_, exec_stg4 s⟩
  | spread => exact withInput_cases s _
  | decompose => exact .inl ⟨_, exec_decompose s⟩

/-- All that settling can end in. -/
theorem settle_cases (s : State) :
    (∃ t, settle s = .next t) ∨ (s.valueIn = .undriven ∧ settle s = .refused .undefinedInput) := by
  cases hv : s.valueIn with
  | undriven => exact .inr ⟨rfl, settle_undriven s hv⟩
  | driven v => exact .inl ⟨_, settle_driven s v hv⟩

theorem exec_ne_invalidInputRange (i : Instr) (s : State) : exec i s ≠ .refused .invalidInputRange := by
  rcases exec_cases i s with ⟨t, h⟩ | ⟨-, h⟩ <;> simp [h]

theorem settle_ne_invalidInputRange (s : State) : settle s ≠ .refused .invalidInputRange := by
  rcases settle_cases s with ⟨t, h⟩ | ⟨-, h⟩ <;> simp [h]

theorem hostStep_call_of_outside {n : Int} (r0 r1 r2 : HostVar) (hn : n < 0 ∨ 255 < n) (s : State) :
    hostStep (.call (.integer n) r0 r1 r2) s = .refused .invalidInputRange := by
  rw [hostStep, hostCall, withByte_of_outside n _ hn]

theorem hostStep_call_notInteger (r0 r1 r2 : HostVar) (s : State) :
    hostStep (.call .notInteger r0 r1 r2) s = .refused .invalidInputRange := rfl

/-- Settles O35: the boundary refuses the line from every state, so also from the one the block's settling leaves; the
block's own only refusal is that of an undriven port. -/
theorem outOfRangeCallIsRefused : Obligations.OutOfRangeCallIsRefused := by
  unfold Obligations.OutOfRangeCallIsRefused
  refine ⟨fun s n r0 r1 r2 hn => ?_, fun s r0 r1 r2 => ?_, fun i s => ?_⟩
  · exact ⟨hostStep_call_of_outside r0 r1 r2 hn s, fun hl =>
      State.lineEnds_of_hostStep hl fun u _ _ => hostStep_call_of_outside r0 r1 r2 hn u⟩
  · exact ⟨hostStep_call_notInteger r0 r1 r2 s, fun hl =>
      State.lineEnds_of_hostStep hl fun u _ _ => hostStep_call_notInteger r0 r1 r2 u⟩
  · exact ⟨exec_ne_invalidInputRange i s, settle_ne_invalidInputRange s⟩

/-- Settles O20: with a driven port the only refusal is excluded; a fault has no reason it could carry. -/
theorem noOperationEverFaults : Obligations.NoOperationEverFaults := by
  unfold Obligations.NoOperationEverFaults
  refine ⟨fun i s v hv => ?_, fun s v hv => ⟨_, settle_driven s v hv⟩, fun _ r => nomatch r⟩
  rcases exec_cases i s with h | ⟨hu, -⟩
  · exact h
  · cases hv.symm.trans hu

end Sys2Proof.Machine
end

section
/-! PROOFS. SAMPLE and CALL (20_memory.md R29, 30_encoding.md R43, 70_reset_and_hazards.md R80, R85): what a sample reads, and
the two facts about the lanes of a value that say what that is: in a row they are the expanded word, and bit by bit they are the
value's bit runs. -/

namespace Sys2Proof.Machine

/-! ### The lanes of a value -/

/-- The three lanes in a row are the word that was sliced (R60). -/
theorem decomposeWord_append (e : Expanded) :
    (decomposeWord e).lane2 ++ (decomposeWord e).lane1 ++ (decomposeWord e).lane0 = e := by
  rw [decomposeWord_eq_slices]
  exact append_extractLsb'_bytes e

/-- Bit `j` of lane `k` is bit `j + 8 * k` of the expanded word, which the bit-run law fills (R49, R59). -/
theorem lanes_getLsbD (v : Byte) {j : Nat} (hj : j < 8) :
    (decomposeWord (spreadWord v)).lane0.getLsbD j = v.getLsbD (j / 3) ∧
    (decomposeWord (spreadWord v)).lane1.getLsbD j = v.getLsbD ((j + 8) / 3) ∧
    (decomposeWord (spreadWord v)).lane2.getLsbD j = v.getLsbD ((j + 16) / 3) := by
  rw [decomposeWord_eq_slices]
  simp [hj, spreadWord_getLsbD, Nat.add_comm]

/-! ### What the two lines do -/

theorem hostStep_sample_of_settled {s : State} {v : Byte} (r0 r1 r2 : HostVar) (hs : s.status = .settled)
    (hv : s.valueIn = .driven v) :
    hostStep (.sample r0 r1 r2) s = .next (s.keepSample (decomposeWord (spreadWord v)) r0 r1 r2).nextLine := by
  rw [hostStep, hostSample, s.afterSample_of_settled v hs hv, s.sampled_of_settled v hs hv]

theorem hostStep_sample_of_settling {s : State} (r0 r1 r2 : HostVar) (hs : s.status = .settling) :
    hostStep (.sample r0 r1 r2) s = .next (s.drawn.keepSample (drawLanes s.stream s.draws) r0 r1 r2).nextLine := by
  rw [hostStep, hostSample, s.afterSample_of_settling hs, s.sampled_of_settling hs]

theorem hostStep_call_toNat (v : Byte) (r0 r1 r2 : HostVar) (s : State) :
    hostStep (.call (.integer v.toNat) r0 r1 r2) s =
      .next (((s.driveInput v).evaluated v).keepSample (decomposeWord (spreadWord v)) r0 r1 r2).nextLine := by
  rw [hostStep, hostCall_of_range _ r0 r1 r2 s (by omega) (by omega)]
  simp

/-! ### The obligations -/

/-- Settles O31: the settled block takes the line at once, the lanes it gives are the expanded word in a row, and the invariant
holds the same lanes on the ports. -/
theorem settledSampleReadsTheLanes : Obligations.SettledSampleReadsTheLanes := by
  unfold Obligations.SettledSampleReadsTheLanes
  intro s v r0 r1 r2 hs hv hl
  have hstep : step s = .next (s.keepSample (decomposeWord (spreadWord v)) r0 r1 r2).nextLine :=
    ((step_of_line s _ hl).trans (takeLine_of_settled s _ hs)).trans (hostStep_sample_of_settled r0 r1 r2 hs hv)
  refine ⟨_, hstep, rfl, rfl, rfl, _, _, _, ?_, s.keepSample_get _ r0 r1 r2,
    fun hi => (hi.carries_of_settled hs hv).lanes⟩
  rw [decomposeWord_append, spreadWord_toNat]

/-- Settles O32: a settling block's sample is the three free values of this draw; an undriven block cannot settle before it. -/
theorem settlingSampleIsADraw : Obligations.SettlingSampleIsADraw := by
  unfold Obligations.SettlingSampleIsADraw
  intro s r0 r1 r2 hs
  have hline := hostStep_sample_of_settling r0 r1 r2 hs
  refine ⟨_, hline, rfl, rfl, rfl, s.drawn.keepSample_get _ r0 r1 r2, fun hl hv => ?_⟩
  exact ((step_of_line s _ hl).trans (takeLine_of_undriven s _ hv)).trans hline

/-- Settles O33: from every state, so also from the one the block's settling leaves, the call evaluates its own value, whose
lanes are the bit runs. -/
theorem callReturnsTheLanesFromEveryState : Obligations.CallReturnsTheLanesFromEveryState := by
  unfold Obligations.CallReturnsTheLanesFromEveryState
  intro s v r0 r1 r2 hl
  refine State.lineEnds_of_hostStep hl fun u hu _ => ?_
  rw [← hu]
  exact ⟨_, hostStep_call_toNat v r0 r1 r2 u, rfl, rfl, rfl, rfl, _, _, _, rfl, fun j hj => lanes_getLsbD v hj,
    ((u.driveInput v).evaluated v).keepSample_get _ r0 r1 r2⟩

end Sys2Proof.Machine
end

section
/-! PROOFS. The transitions of 70_reset_and_hazards.md R85: when the block's settling is one, which of them a step takes, and how
the block's pair of input and status moves (10_state.md R13), from which what holds before the first input follows (R77). -/

namespace Sys2Proof.Machine

/-! ### Which transition a step takes -/

theorem step_of_hosts_turn {s : State} {l : HostLine} (hl : s.host.current = some l)
    (h : s.status = .settled ∨ s.valueIn = .undriven) : step s = hostStep l s := by
  rw [step_of_line s l hl]
  rcases h with h | h
  · exact takeLine_of_settled s l h
  · exact takeLine_of_undriven s l h

theorem State.evaluated_toBlock {s : State} {v : Byte} (hv : s.valueIn = .driven v) :
    (s.evaluated v).toBlock = ⟨.driven v, .settled⟩ :=
  congrArg (Block.mk · .settled) hv

/-- One transition reaches its next state. -/
theorem Moves.reaches {s t : State} (h : Moves s t) : Reaches s t := .further s t .here h

/-- A free value may be drawn before a transition. -/
theorem Moves.reaches_after_draw {s t : State} (h : Moves s.drawn t) : Reaches s t :=
  .further s.drawn t (Moves.draw (s := s)).reaches h

/-- Settles O46: a driven input is all that settling needs; and a settling block with one may settle before every line but a
WAIT. -/
theorem settleIsEnabledWheneverSettling : Obligations.SettleIsEnabledWheneverSettling := by
  unfold Obligations.SettleIsEnabledWheneverSettling
  intro s v hs hv
  have hsettle := settle_driven s v hv
  refine ⟨⟨_, hsettle, .block _ hsettle, State.evaluated_toBlock hv, rfl⟩, step_of_no_line s, fun l hl => ⟨?_, ?_⟩⟩
  · rintro rfl
    exact (step_of_line s _ hl).trans (takeLine_wait s)
  · intro hw
    have hturn : s.maySettleBefore l = true := (s.maySettleBefore_iff l).mpr ⟨hw, hs, v, hv⟩
    exact (step_of_line s l hl).trans (takeLine_of_blocks_turn s l hturn)

/-- Settles O47: the cases of `takeLine_cases`, each of which is a transition, after a draw or not. -/
theorem stepTakesOneTransition : Obligations.StepTakesOneTransition := by
  unfold Obligations.StepTakesOneTransition
  refine ⟨fun _ _ => step_of_hosts_turn, fun s t h => ?_⟩
  cases hl : s.host.current with
  | none =>
    rw [step_of_no_line s hl] at h
    exact ⟨.inl ⟨rfl, h⟩, (Moves.block t h).reaches⟩
  | some l =>
    rw [step_of_line s l hl] at h
    rcases takeLine_cases s l with e | ⟨hw, hs, hv, e | e⟩ <;> rw [e] at h
    · exact ⟨.inr ⟨l, rfl, .inl h⟩, (Moves.host l t hl h).reaches⟩
    · exact ⟨.inr ⟨l, rfl, .inr ⟨hw, hs, hv, .inr h⟩⟩, (Moves.host (s := s.drawn) l t hl h).reaches_after_draw⟩
    · exact ⟨.inr ⟨l, rfl, .inr ⟨hw, hs, hv, .inl h⟩⟩, (Moves.block (s := s.drawn) t h).reaches_after_draw⟩

/-! ### How the block's pair of input and status moves -/

/-- Settles O48: each line's next state, by `hostStep_eq_next`, has the pair that R85 gives it. -/
theorem blockMovesOnlyAsR85Says : Obligations.BlockMovesOnlyAsR85Says := by
  unfold Obligations.BlockMovesOnlyAsR85Says
  intro s t hm
  cases hm with
  | draw => exact .inl rfl
  | block _ h =>
    obtain ⟨v, hv, rfl⟩ := settle_eq_next s t h
    exact .inr (.inl ⟨v, hv, State.evaluated_toBlock hv⟩)
  | host l _ hl h =>
    rcases hostStep_eq_next s t l h with
      ⟨e, v, rfl, he, rfl⟩ | ⟨v, -, hv, rfl⟩ | ⟨_, _, _, -, rfl⟩ | ⟨_, _, _, -, -, rfl⟩ | ⟨_, _, _, -, -, rfl⟩ |
      ⟨v, r0, r1, r2, rfl, rfl⟩
    · exact .inr (.inr (.inl ⟨e, v, hl, he, rfl⟩))
    · exact .inr (.inl ⟨v, hv, State.evaluated_toBlock hv⟩)
    · exact .inl s.afterSample_toBlock
    · exact .inl rfl
    · exact .inl (by split <;> rfl)
    · exact .inr (.inr (.inr ⟨v, r0, r1, r2, hl, rfl⟩))

/-- Seen from the input alone: a transition leaves the block's pair as it was, or leaves the input driven. -/
theorem Moves.toBlock_eq_or_launched {s t : State} (h : Moves s t) : t.toBlock = s.toBlock ∨ t.Launched := by
  rcases blockMovesOnlyAsR85Says s t h with h | ⟨v, -, h⟩ | ⟨_, v, -, -, h⟩ | ⟨v, _, _, _, -, h⟩
  · exact .inl h
  all_goals exact .inr ⟨v, congrArg Block.valueIn h⟩

/-- So it is along every run. -/
theorem Reaches.toBlock_eq_or_launched {s t : State} (h : Reaches s t) : t.toBlock = s.toBlock ∨ t.Launched := by
  induction h with
  | here => exact .inl rfl
  | further t u _ hm ih =>
    rcases hm.toBlock_eq_or_launched with hu | hu
    · rcases ih with ht | ⟨v, hv⟩
      · exact .inl (hu.trans ht)
      · exact .inr ⟨v, (congrArg Block.valueIn hu).trans hv⟩
    · exact .inr hu

/-- Settles O39: along a run the block's pair is still the first one, or the input is driven. -/
theorem noSettlingBeforeTheFirstInput : Obligations.NoSettlingBeforeTheFirstInput := by
  unfold Obligations.NoSettlingBeforeTheFirstInput
  intro s t hr
  rcases hr.toBlock_eq_or_launched with hb | ⟨v, hv⟩
  · exact ⟨fun _ hs _ => (congrArg Block.status hb).trans hs,
      fun ⟨v, hv⟩ => ⟨v, (congrArg Block.valueIn hb).trans hv⟩⟩
  · exact ⟨fun _ _ hu => (nomatch hu.symm.trans hv), fun _ => ⟨v, hv⟩⟩

end Sys2Proof.Machine
end

section
/-! PROOFS. Settling in time (70_reset_and_hazards.md R79, R80): at one time a block has settled on one value at most, so that an
output run may show that value's lanes wherever there is one and anything elsewhere. -/

namespace Sys2Proof.Machine.Timing

/-- What the block has settled on is what its input carries at that time. -/
theorem SettledOn.input_eq {tpd : ℚ} {input : InputRun} {v : Byte} {t : ℚ} (htpd : 0 ≤ tpd)
    (h : SettledOn tpd input v t) : input t = .driven v :=
  h t (by linarith) le_rfl

theorem SettledOn.unique {tpd : ℚ} {input : InputRun} {v w : Byte} {t : ℚ} (htpd : 0 ≤ tpd)
    (hv : SettledOn tpd input v t) (hw : SettledOn tpd input w t) : v = w :=
  PortLevel.driven.inj ((hv.input_eq htpd).symm.trans (hw.input_eq htpd))

/-- An input held from `t0` to `t1` has been held for T_PD at every time from `t0 + T_PD` to `t1`. -/
theorem Holds.settledOn {tpd : ℚ} {input : InputRun} {v : Byte} {t0 t1 t : ℚ} (h : Holds input v t0 t1)
    (ht0 : t0 + tpd ≤ t) (ht1 : t ≤ t1) : SettledOn tpd input v t :=
  fun u hu hut => h u (by linarith) (hut.trans ht1)

/-- Where the input changes at `t0`, no value has been held for T_PD before `t0 + T_PD`. -/
theorem not_settledOn_after_change {tpd : ℚ} {input : InputRun} {t0 t : ℚ}
    (hchange : ∀ a < t0, ∃ u, a < u ∧ u < t0 ∧ input u ≠ input t0) (ht0 : t0 ≤ t) (ht : t < t0 + tpd) (v : Byte) :
    ¬SettledOn tpd input v t := by
  intro h
  obtain ⟨u, hu, hut0, hne⟩ := hchange (t - tpd) (by linarith)
  have before : input u = .driven v := h u hu.le (by linarith)
  have after : input t0 = .driven v := h t0 (by linarith) ht0
  exact hne (before.trans after.symm)

/-- At each time there are lanes that the block may show, which are any wanted ones where it has settled on nothing. -/
theorem exists_shown_lanes {tpd : ℚ} (htpd : 0 ≤ tpd) (input : InputRun) (wanted : Lanes) (t : ℚ) :
    ∃ l : Lanes, (∀ v, SettledOn tpd input v t → l = decomposeWord (spreadWord v)) ∧
      ((∀ v, ¬SettledOn tpd input v t) → l = wanted) := by
  by_cases hsettled : ∃ v, SettledOn tpd input v t
  · obtain ⟨v, hv⟩ := hsettled
    exact ⟨decomposeWord (spreadWord v), fun w hw => by rw [hv.unique htpd hw], fun hnone => absurd hv (hnone v)⟩
  · exact ⟨wanted, fun v hv => absurd ⟨v, hv⟩ hsettled, fun _ => rfl⟩

/-- Settles O43: held for T_PD the input's lanes are shown; just after a change nothing has been held so long; and the free
times' outputs are chosen time by time. -/
theorem settledInTime : Obligations.SettledInTime := by
  unfold Obligations.SettledInTime
  refine ⟨fun tpd input output v t0 t1 _ hshows hholds t ht0 ht1 j hj => ?_,
    fun _ _ _ _ hchange ht0 ht => not_settledOn_after_change hchange ht0 ht, fun tpd input any htpd => ?_⟩
  · rw [hshows t v (hholds.settledOn ht0 ht1)]
    exact lanes_getLsbD v hj
  · choose output hshown hfree using fun t => exists_shown_lanes htpd input (any t) t
    exact ⟨output, hshown, hfree⟩

end Sys2Proof.Machine.Timing
end

section
/-! PROOFS. The invariant at power-up and along every step (70_reset_and_hazards.md R76, R77, R79, R85). -/

namespace Sys2Proof.Machine

/-- Settles O38: a step is a run of moves, by `stepTakesOneTransition`, and every move keeps the invariant. -/
theorem everyStepKeepsTheInvariant : Obligations.EveryStepKeepsTheInvariant := by
  unfold Obligations.EveryStepKeepsTheInvariant
  refine ⟨fun s t hi h => ?_, fun s t hi hm => hm.keeps_inv hi⟩
  obtain ⟨-, hrun⟩ := stepTakesOneTransition.2 s t h
  exact hrun.keeps_inv hi

theorem State.powerUp_inv (k : Nat) : (State.powerUp k).Inv :=
  State.inv_of_settling rfl List.Pairwise.nil

/-- Settles O37: the block powers up settling, of which the invariant asks nothing, and no host variable is set. -/
theorem powerUpMeetsTheInvariant : Obligations.PowerUpMeetsTheInvariant := by
  unfold Obligations.PowerUpMeetsTheInvariant
  exact ⟨State.powerUp_inv 0, State.powerUp_inv, State.reset_status, State.reset_valueIn⟩

end Sys2Proof.Machine
end

section
/-! PROOFS. Decoding and encoding (30_encoding.md R36, R37, R41 to R43). No bit of a word selects an operation, so a word is
the value it carries, and its evaluation is that value with SPREAD and DECOMPOSE. -/

namespace Sys2Proof

theorem decode_cons (b : Byte) (rest : List Byte) :
    decode (b :: rest) = .ok (⟨b, [.spread, .decompose]⟩, rest) := by
  rw [decode, Laws.AlwaysPerformed.operationsOn_eq]

theorem Evaluation.wf_iff (e : Evaluation) : e.wf = true ↔ e.ops = [.spread, .decompose] := beq_iff_eq

/-- What a decoded word says: its value comes first, and the rest follows it. -/
theorem decode_eq_ok {ws rest : List Byte} {e : Evaluation} (h : decode ws = .ok (e, rest)) :
    ws = e.value :: rest ∧ e.ops = [.spread, .decompose] := by
  cases ws with
  | nil => cases h
  | cons b ws =>
    rw [decode_cons] at h
    cases h
    exact ⟨rfl, rfl⟩

/-- An operation's row has no select bits, so its word for a value is the value. -/
theorem Instr.encode_eq (i : Instr) (v : Byte) : i.encode v = [v] := by
  have noSelectBits : i.row.mask = 0 ∧ i.row.matchBits = 0 := by cases i <;> exact ⟨rfl, rfl⟩
  simp [Instr.encode, noSelectBits]
  exact BitVec.and_allOnes

/-- SPREAD and DECOMPOSE are performed as themselves, the stages inside SPREAD (R41, R48). -/
theorem Evaluation.performs_of_wf {e : Evaluation} (he : e.wf = true) (i : Instr) : e.performs i = true := by
  rw [Evaluation.performs, e.wf_iff.mp he]
  cases i <;> decide

theorem decodeTableWord_eq (nbits w : Nat) :
    decodeTableWord nbits w = if w < 256 then some .spread else none := by
  simp only [decodeTableWord, decode_cons, List.head?_cons]

/-- Settles O25: a word decodes to its value's evaluation (`decode_cons`), and every operation's word is its value. -/
theorem decodeAndEncodeAgree : Obligations.DecodeAndEncodeAgree := by
  unfold Obligations.DecodeAndEncodeAgree
  refine ⟨fun ⟨v, ops⟩ rest he => ?_, fun ws rest e h => ?_, fun i v => ?_, fun nbits w => ?_⟩
  · obtain rfl : ops = [.spread, .decompose] := (Evaluation.wf_iff _).mp he
    exact decode_cons v rest
  · obtain ⟨hws, hops⟩ := decode_eq_ok h
    exact ⟨e.wf_iff.mpr hops, hws.symm⟩
  · rw [i.encode_eq]
    exact ⟨_, decode_cons v [], rfl, Evaluation.performs_of_wf rfl i⟩
  · rw [decodeTableWord_eq]
    by_cases hw : w < 256 <;> simp [hw]

/-- Settles O24: each word's value is its evaluation's, and what follows the word is left over. -/
theorem wordsDecodeAsWritten : Obligations.WordsDecodeAsWritten := by
  unfold Obligations.WordsDecodeAsWritten
  exact ⟨decode_cons .., decode_cons .., decode_cons .., rfl⟩

end Sys2Proof
end

section
/-! PROOFS. STG1 and STG2 as moves of bit fields, and the laws of all four stages that hold on every net which meets the
mask of the stage before (40_spread.md R44, R45, R50, R51). -/

namespace Sys2Proof.Machine

/-! ### The bits of the first two nets -/

/-- STG1 puts nibble i of the input at bits 12i and up, and 0 elsewhere (R44). -/
theorem stage1_getLsbD_nibbles (v : Byte) (j : Nat) :
    (stage1 v).getLsbD j = (decide (j % 12 < 4) && v.getLsbD (j / 12 * 4 + j % 12)) := by
  by_cases hj : j < 16
  · rw [stage1_getLsbD]
    interval_cases j <;> simp [Nat.testBit]
  · rw [BitVec.getLsbD_of_ge _ _ (by omega)]
    by_cases h : j % 12 < 4
    · rw [BitVec.getLsbD_of_ge v _ (by omega), Bool.and_false]
    · simp [h]

/-- STG2 puts pair i of the input at bits 6i and up, and 0 elsewhere (R45). -/
theorem stage2_series_getLsbD_pairs (v : Byte) (j : Nat) :
    (stage2 (stage1 v)).getLsbD j = (decide (j % 6 < 2) && v.getLsbD (j / 6 * 2 + j % 6)) := by
  by_cases hj : j < 20
  · rw [stage2_getLsbD (stage1_meets_mask v)]
    simp only [stage1_getLsbD]
    interval_cases j <;> simp [Nat.testBit]
  · rw [BitVec.getLsbD_of_ge _ _ (by omega)]
    by_cases h : j % 6 < 2
    · rw [BitVec.getLsbD_of_ge v _ (by omega), Bool.and_false]
    · simp [h]

theorem stage1_extractLsb'_nibble (v : Byte) (i : Nat) :
    (stage1 v).extractLsb' (12 * i) 4 = v.extractLsb' (4 * i) 4 := by
  refine BitVec.eq_of_getLsbD_eq fun k hk => ?_
  have hfield : (12 * i + k) % 12 = k := by omega
  have hindex : (12 * i + k) / 12 * 4 = 4 * i := by omega
  simp [stage1_getLsbD_nibbles, hfield, hindex, hk]

theorem stage1_extractLsb'_gap (v : Byte) : (stage1 v).extractLsb' 4 8 = 0 := by
  refine BitVec.eq_of_getLsbD_eq fun k hk => ?_
  have hgap : ¬(4 + k) % 12 < 4 := by omega
  simp [stage1_getLsbD_nibbles, hgap]

theorem stage2_series_extractLsb'_pair (v : Byte) (i : Nat) :
    (stage2 (stage1 v)).extractLsb' (6 * i) 2 = v.extractLsb' (2 * i) 2 := by
  refine BitVec.eq_of_getLsbD_eq fun k hk => ?_
  have hfield : (6 * i + k) % 6 = k := by omega
  have hindex : (6 * i + k) / 6 * 2 = 2 * i := by omega
  simp [stage2_series_getLsbD_pairs, hfield, hindex, hk]

/-- Outside the four pairs the net is 0. -/
theorem stage2_series_getLsbD_gap (v : Byte) {j : Nat} (hj : j ∉ [0, 1, 6, 7, 12, 13, 18, 19]) :
    (stage2 (stage1 v)).getLsbD j = false := by
  by_cases hlt : j < 20
  · have hgap : ¬j % 6 < 2 := by
      simp only [List.mem_cons, List.not_mem_nil, or_false, not_or] at hj
      omega
    simp [stage2_series_getLsbD_pairs, hgap]
  · exact BitVec.getLsbD_of_ge _ _ (by omega)

/-- STG1's product is the byte beside itself (R44). -/
theorem mul_0x101_eq_append (v : Byte) : v.toNat * 0x101 = (v ++ v).toNat := by
  rw [BitVec.toNat_append, ← Nat.shiftLeft_add_eq_or_of_lt v.isLt, Nat.shiftLeft_eq]
  omega

/-! ### No product wraps -/

theorem mul_0x101_le (v : Byte) : v.toNat * 0x101 ≤ 0xFFFF := by omega

theorem mul_0x11_le_of_mask {x : Nat} (hx : x &&& 0xF00F = x) : x * 0x11 ≤ 0xFF0FF := by
  have hle : x ≤ 0xF00F := hx ▸ Nat.and_le_right
  omega

theorem mul_five_le_of_mask {x : Nat} (hx : x &&& 0x0C30C3 = x) : x * 5 ≤ 0x3CF3CF := by
  have hle : x ≤ 0x0C30C3 := hx ▸ Nat.and_le_right
  omega

/-- A number of at most 24 bits is the same modulo every wider power of two. -/
theorem mod_two_pow_of_le {n w : Nat} (hn : n ≤ 0xFFFFFF) (hw : 24 ≤ w) : n % 2 ^ w = n :=
  Nat.mod_eq_of_lt (calc
    n < 2 ^ 24 := by omega
    _ ≤ 2 ^ w := Nat.pow_le_pow_right (by decide) hw)

/-! ### Shift-and-OR networks -/

theorem getLsbD_zeroExtend {n w j : Nat} (x : BitVec n) (hj : j < w) : (x.zeroExtend w).getLsbD j = x.getLsbD j := by
  rw [BitVec.getLsbD_setWidth, decide_eq_true hj, Bool.true_and]

theorem getLsbD_zeroExtend_shiftLeft {n w j : Nat} (x : BitVec n) (k : Nat) (hj : j < w) :
    (x.zeroExtend w <<< k).getLsbD j = (decide (k ≤ j) && x.getLsbD (j - k)) := by
  rw [BitVec.getLsbD_shiftLeft, getLsbD_zeroExtend x (by omega), decide_eq_true hj, Bool.true_and, ← decide_not]
  simp only [Nat.not_lt]

/-- A word whose bits are those of two copies of `x` under a mask is the network that ORs the copies and masks them. -/
theorem eq_masked_or_shiftLeft {n w k m : Nat} {y : BitVec w} {x : BitVec n}
    (h : ∀ j, y.getLsbD j = ((x.getLsbD j || (decide (k ≤ j) && x.getLsbD (j - k))) && m.testBit j)) :
    y = (x.zeroExtend w ||| (x.zeroExtend w <<< k)) &&& BitVec.ofNat w m := by
  refine BitVec.eq_of_getLsbD_eq fun j hj => ?_
  rw [h, BitVec.getLsbD_and, BitVec.getLsbD_or, getLsbD_zeroExtend x hj, getLsbD_zeroExtend_shiftLeft x k hj,
    BitVec.getLsbD_ofNat, decide_eq_true hj, Bool.true_and]

/-! ### The obligations -/

/-- Settles O1: the nibbles are `stage1_extractLsb'_nibble`, and the product is the byte beside itself. -/
theorem stg1KeepsTwoNibbles : Obligations.Stg1KeepsTwoNibbles := by
  unfold Obligations.Stg1KeepsTwoNibbles
  intro s v hv
  refine ⟨_, exec_stg1_driven hv, stage1_toNat v, stage1_extractLsb'_nibble v 0, stage1_extractLsb'_nibble v 1,
    stage1_extractLsb'_gap v, mul_0x101_eq_append v, mul_0x101_le v, fun h => ?_, fun h => ?_, fun h => ?_, fun h => ?_⟩ <;>
    rw [h] <;> decide

/-- Settles O2: on STG1's nets the pairs are `stage2_series_extractLsb'_pair`; on every masked net the product is an OR. -/
theorem stg2KeepsFourPairs : Obligations.Stg2KeepsFourPairs := by
  unfold Obligations.Stg2KeepsFourPairs
  refine fun s => ⟨_, exec_stg2 s, stage2_toNat _, fun v hv => ?_, fun hmask => ?_, fun h => ?_, fun h => ?_, fun h => ?_⟩
  · have hv1 : s.nets.v1 = stage1 v := BitVec.eq_of_toNat_eq (hv.trans (stage1_toNat v).symm)
    rw [hv1]
    exact ⟨stage2_series_extractLsb'_pair v 0, stage2_series_extractLsb'_pair v 1, stage2_series_extractLsb'_pair v 2,
      stage2_series_extractLsb'_pair v 3, fun j hj => stage2_series_getLsbD_gap v hj⟩
  · have hx : s.nets.v1.toNat &&& 0xF00F = s.nets.v1.toNat := congrArg BitVec.toNat hmask
    exact ⟨and_shiftLeft_eq_zero_of_mask hx (by decide), mul_two_pow_add_one_eq_or 4 hx (by decide),
      mul_0x11_le_of_mask hx⟩
  · rw [h]; decide
  · rw [h]; decide
  · rw [h]; decide

/-- Settles O8: a product within its maximum has 24 bits, so no width of 24 or more cuts it. -/
theorem noStageWraps : Obligations.NoStageWraps := by
  unfold Obligations.NoStageWraps
  refine ⟨fun v w hw => ?_, fun x w hw hmask => ?_, fun x w hw hmask => ?_, fun x w hw hmask => ?_, by decide, by decide,
    by decide, by decide⟩
  · have hle := mul_0x101_le v
    exact ⟨by rw [mod_two_pow_of_le (by omega) hw, stage1_toNat], hle⟩
  · have hle := mul_0x11_le_of_mask (congrArg BitVec.toNat hmask)
    exact ⟨by rw [mod_two_pow_of_le (by omega) hw, stage2_toNat], hle⟩
  · have hle := mul_five_le_of_mask (congrArg BitVec.toNat hmask)
    exact ⟨by rw [mod_two_pow_of_le (by omega) hw, stage3_toNat], hle⟩
  · have hx : x.toNat &&& 0x249249 = x.toNat := congrArg BitVec.toNat hmask
    have hle := mul_seven_le_of_mask hx
    exact ⟨by rw [mod_two_pow_of_le (by omega) hw, stage4_toNat_of_mask hx], hle⟩

/-- Settles O9: bit by bit, by the law of each stage's bits and, for SPREAD, the bit-run law. -/
theorem multipliersEqualShiftAndOr : Obligations.MultipliersEqualShiftAndOr := by
  unfold Obligations.MultipliersEqualShiftAndOr
  refine ⟨fun v => ?_, fun x hmask => ?_, fun x hmask => ?_, fun x hmask => ?_, fun s v hv => ?_⟩
  · exact eq_masked_or_shiftLeft (stage1_getLsbD v)
  · exact eq_masked_or_shiftLeft (stage2_getLsbD (congrArg BitVec.toNat hmask))
  · exact eq_masked_or_shiftLeft (stage3_getLsbD (congrArg BitVec.toNat hmask))
  · refine BitVec.eq_of_getLsbD_eq fun j hj => ?_
    rw [stage4_getLsbD (congrArg BitVec.toNat hmask), BitVec.getLsbD_or, BitVec.getLsbD_or,
      getLsbD_zeroExtend_shiftLeft x 1 hj, getLsbD_zeroExtend_shiftLeft x 2 hj, getLsbD_zeroExtend x hj]
  · refine ⟨_, exec_spread_driven s v hv, BitVec.eq_of_getLsbD_eq fun j hj => ?_⟩
    rw [spreadWord_getLsbD, BitVec.getLsbD_ofFnLE, dif_pos hj]

end Sys2Proof.Machine
end

section
/-! PROOFS. SPREAD as a function of its input (40_spread.md R52, R55; 95_test_vectors.md P5): what it answers is
`spreadWord` of the input, and all that is said of that word follows from its bits. -/

namespace Sys2Proof.Machine

/-- All that SPREAD can do. -/
theorem exec_spread_eq_next {s t : State} (h : exec .spread s = .next t) :
    ∃ v, s.valueIn = .driven v ∧
      t = { s with nets := ⟨stage1 v, stage2 (stage1 v), stage3 (stage2 (stage1 v)), spreadWord v⟩ } := by
  cases hv : s.valueIn with
  | undriven => exact nomatch (withInput_undriven s _ hv).symm.trans h
  | driven v => exact ⟨v, rfl, (Host.Outcome.next.inj ((exec_spread_driven s v hv).symm.trans h)).symm⟩

/-- What SPREAD drives onto `expanded`, the input being known. -/
theorem expanded_of_exec_spread {s t : State} {v : Byte} (hv : s.valueIn = .driven v) (h : exec .spread s = .next t) :
    t.nets.expanded = spreadWord v := by
  rw [exec_spread_driven s v hv] at h
  cases h
  rfl

theorem spreadWord_injective : Function.Injective spreadWord := fun v w h =>
  BitVec.eq_of_getLsbD_eq fun i _ => by
    rw [← spreadWord_getLsbD_run v i (k := 0) (by decide), h, spreadWord_getLsbD_run w i (by decide)]

theorem spreadWord_or (v w : Byte) : spreadWord (v ||| w) = spreadWord v ||| spreadWord w :=
  BitVec.eq_of_getLsbD_eq fun j _ => by simp only [spreadWord_getLsbD, BitVec.getLsbD_or]

theorem spreadWord_and (v w : Byte) : spreadWord (v &&& w) = spreadWord v &&& spreadWord w :=
  BitVec.eq_of_getLsbD_eq fun j _ => by simp only [spreadWord_getLsbD, BitVec.getLsbD_and]

/-! ### The image of SPREAD -/

/-- The byte made of the lowest bit of each run of a 24-bit word. -/
def byteOfRuns (e : Expanded) : Byte := BitVec.ofFnLE fun i : Fin 8 => e.getLsbD (3 * i)

theorem byteOfRuns_getLsbD (e : Expanded) {i : Nat} (hi : i < 8) : (byteOfRuns e).getLsbD i = e.getLsbD (3 * i) := by
  rw [byteOfRuns, BitVec.getLsbD_ofFnLE, dif_pos hi]

/-- A run is 000 or 111 when it repeats one bit. -/
theorem replicate_three_ofBool (b : Bool) :
    (BitVec.ofBool b).replicate 3 = 0b000 ∨ (BitVec.ofBool b).replicate 3 = 0b111 := by
  cases b <;> decide

/-- In a run that is 000 or 111 every bit is the lowest one. -/
theorem getLsbD_of_uniform_run {e : Expanded} {i k : Nat} (hk : k < 3)
    (h : e.extractLsb' (3 * i) 3 = 0b000 ∨ e.extractLsb' (3 * i) 3 = 0b111) :
    e.getLsbD (3 * i + k) = e.getLsbD (3 * i) := by
  have bit (m : Nat) (hm : m < 3) : e.getLsbD (3 * i + m) = (e.extractLsb' (3 * i) 3).getLsbD m := by
    rw [BitVec.getLsbD_extractLsb', decide_eq_true hm, Bool.true_and]
  rw [bit k hk, ← Nat.add_zero (3 * i), bit 0 (by decide), Nat.add_zero]
  obtain h | h := h <;> rw [h] <;> interval_cases k <;> rfl

/-- A word of uniform runs is the expanded word of the byte of its runs (R55). -/
theorem spreadWord_byteOfRuns {e : Expanded}
    (h : ∀ i < 8, e.extractLsb' (3 * i) 3 = 0b000 ∨ e.extractLsb' (3 * i) 3 = 0b111) :
    spreadWord (byteOfRuns e) = e := by
  refine BitVec.eq_of_getLsbD_eq fun j hj => ?_
  have hrun : j / 3 < 8 := by omega
  rw [spreadWord_getLsbD, byteOfRuns_getLsbD e hrun, ← getLsbD_of_uniform_run (Nat.mod_lt j (by decide)) (h _ hrun),
    Nat.div_add_mod]

/-! ### The obligations -/

/-- Settles O10: both expanded words are `spreadWord` of the input, which SPREAD leaves on the port. -/
theorem spreadIsDeterministic : Obligations.SpreadIsDeterministic := by
  unfold Obligations.SpreadIsDeterministic
  intro s s' v hv hv'
  exact ⟨_, _, exec_spread_driven s v hv, exec_spread_driven s' v hv', rfl, rfl, exec_spread_driven _ v hv⟩

/-- Settles O11: `spreadWord` is injective, fills runs, and gives every word of uniform runs. -/
theorem spreadIsReversible : Obligations.SpreadIsReversible := by
  unfold Obligations.SpreadIsReversible
  refine ⟨fun s s' t t' h h' he => ?_, fun s t v hv h i _ k hk => ?_, fun e => ⟨?_, fun huniform => ?_⟩⟩
  · obtain ⟨v, hv, rfl⟩ := exec_spread_eq_next h
    obtain ⟨w, hw, rfl⟩ := exec_spread_eq_next h'
    rw [hv, hw, spreadWord_injective he]
  · rw [expanded_of_exec_spread hv h, spreadWord_getLsbD_run v i hk]
  · rintro ⟨s, t, h, rfl⟩ i -
    obtain ⟨v, -, rfl⟩ := exec_spread_eq_next h
    rw [spreadWord_extractLsb']
    exact replicate_three_ofBool _
  · exact ⟨{ State.reset with valueIn := .driven (byteOfRuns e) }, _, exec_spread_driven _ _ rfl,
      spreadWord_byteOfRuns huniform⟩

/-- Settles O12: the four expanded words are `spreadWord` of their inputs. -/
theorem spreadDistributesOverOrAndAnd : Obligations.SpreadDistributesOverOrAndAnd := by
  unfold Obligations.SpreadDistributesOverOrAndAnd
  intro s v w a b o n ha hb ho hn
  rw [expanded_of_exec_spread rfl ha, expanded_of_exec_spread rfl hb, expanded_of_exec_spread rfl ho,
    expanded_of_exec_spread rfl hn]
  exact ⟨spreadWord_or v w, spreadWord_and v w⟩

end Sys2Proof.Machine
end

section
/-! PROOFS. The lanes of a settled block (41_decompose.md R59, 20_memory.md R26, 95_test_vectors.md P2). Lane k repeats a
field of the input's bits, so it takes each of its values for as many inputs as the other bits have values. -/

namespace Sys2Proof.Machine

/-! ### Counting by a field of bits -/

/-- One period of `n / b % m` passes each of its values `b` times. -/
theorem count_div_mod_period {b m r : Nat} (hb : 0 < b) (hr : r < m) :
    Nat.count (fun n => n / b % m = r) (m * b) = b := by
  have block : (Finset.range (m * b)).filter (fun n => n / b % m = r) = Finset.Ico (r * b) (r * b + b) := by
    ext n
    have hle : r * b + b ≤ m * b := by
      rw [← Nat.succ_mul]
      exact Nat.mul_le_mul_right b hr
    have hdiv : n / b = r ↔ r * b ≤ n ∧ n < r * b + b := by
      rw [Nat.div_eq_iff hb]
      omega
    simp only [Finset.mem_filter, Finset.mem_range, Finset.mem_Ico, ← hdiv]
    constructor
    · rintro ⟨hn, h⟩
      rwa [Nat.mod_eq_of_lt ((Nat.div_lt_iff_lt_mul hb).mpr hn)] at h
    · intro h
      exact ⟨by have := hdiv.mp h; omega, by rw [h, Nat.mod_eq_of_lt hr]⟩
  rw [Nat.count_eq_card_filter_range, block, Nat.card_Ico, Nat.add_sub_cancel_left]

theorem count_div_mod (a : Nat) {b m r : Nat} (hb : 0 < b) (hr : r < m) :
    Nat.count (fun n => n / b % m = r) (a * (m * b)) = a * b := by
  induction a with
  | zero => simp
  | succ a ih =>
    have periodic (k : Nat) : (a * (m * b) + k) / b % m = k / b % m := by
      rw [← Nat.mul_assoc, Nat.add_comm, Nat.add_mul_div_right k _ hb, Nat.add_mul_mod_self_right]
    simp only [Nat.succ_mul, Nat.count_add, ih, periodic, count_div_mod_period hb hr]

/-- When every value of a list occurs equally often, the number of values is the quotient. -/
theorem dedup_length_mul_count {α : Type} [DecidableEq α] {l : List α} {c : Nat} (h : ∀ x ∈ l.dedup, l.count x = c) :
    l.dedup.length * c = l.length := by
  rw [← List.sum_map_count_dedup_eq_length l, List.map_congr_left h, List.map_const', List.sum_replicate, smul_eq_mul]

/-! ### The field of the input that a lane repeats -/

/-- The lane at bit `c` of the expanded word, as a function of the input (R59). -/
def IsLaneAt (c : Nat) (f : Byte → Byte) : Prop := ∀ v : Byte, ∀ j < 8, (f v).getLsbD j = v.getLsbD ((j + c) / 3)

theorem isLaneAt_lane0 : IsLaneAt 0 fun v => (decomposeWord (spreadWord v)).lane0 := fun v _ hj => (lanes_getLsbD v hj).1
theorem isLaneAt_lane1 : IsLaneAt 8 fun v => (decomposeWord (spreadWord v)).lane1 := fun v _ hj => (lanes_getLsbD v hj).2.1
theorem isLaneAt_lane2 : IsLaneAt 16 fun v => (decomposeWord (spreadWord v)).lane2 := fun v _ hj => (lanes_getLsbD v hj).2.2

/-- The lane's bits in R59's order, bit 7 first. -/
theorem IsLaneAt.bits_eq {c : Nat} {f : Byte → Byte} (hf : IsLaneAt c f) (v : Byte) :
    [7, 6, 5, 4, 3, 2, 1, 0].map (f v).getLsbD =
      [7, 6, 5, 4, 3, 2, 1, 0].map fun j => v.getLsbD ((j + c) / 3) := by
  refine List.map_congr_left fun j hj => hf v j ?_
  simp only [List.mem_cons, List.not_mem_nil, or_false] at hj
  omega

section
variable {c lo len : Nat} {f : Byte → Byte} (hf : IsLaneAt c f) (hlo : lo = c / 3)
  (hlen : lo + len = (c + 7) / 3 + 1) (h8 : lo + len ≤ 8)
include hf hlo hlen h8

/-- Two inputs share a lane when they share the `len` bits from `lo` on, those that the lane's eight bits come from. -/
theorem IsLaneAt.eq_iff (m n : Nat) :
    f (BitVec.ofNat 8 m) = f (BitVec.ofNat 8 n) ↔ m / 2 ^ lo % 2 ^ len = n / 2 ^ lo % 2 ^ len := by
  have field (m i : Nat) :
      (m / 2 ^ lo % 2 ^ len).testBit i = (decide (i < len) && (BitVec.ofNat 8 m).getLsbD (i + lo)) := by
    rw [Nat.testBit_mod_two_pow, Nat.testBit_div_two_pow, BitVec.getLsbD_ofNat]
    by_cases hi : i < len
    · have : i + lo < 8 := by omega
      simp [hi, this]
    · simp [hi]
  constructor
  · intro h
    refine Nat.eq_of_testBit_eq fun i => ?_
    rw [field, field]
    by_cases hi : i < len
    · obtain ⟨j, hj, hij⟩ : ∃ j < 8, (j + c) / 3 = i + lo := ⟨3 * (i + lo) - c, by omega, by omega⟩
      rw [← hij, ← hf _ j hj, ← hf _ j hj, h]
    · simp [hi]
  · intro h
    refine BitVec.eq_of_getLsbD_eq fun j hj => ?_
    have hi : (j + c) / 3 - lo < len := by omega
    have hsplit : (j + c) / 3 = (j + c) / 3 - lo + lo := by omega
    have hbit := congrArg (Nat.testBit · ((j + c) / 3 - lo)) h
    simp only [field, hi, decide_true, Bool.true_and] at hbit
    rw [hf _ j hj, hf _ j hj, hsplit, hbit]

/-- Every value that a lane takes over the 256 inputs it takes for as many as there are bytes with a given field. -/
theorem IsLaneAt.count_eq :
    ∀ x ∈ ((List.range 256).map fun n => f (BitVec.ofNat 8 n)).dedup,
      ((List.range 256).map fun n => f (BitVec.ofNat 8 n)).count x = 2 ^ (8 - len) := by
  intro x hx
  obtain ⟨k, -, rfl⟩ := List.mem_map.mp (List.mem_dedup.mp hx)
  have bytes : 256 = 2 ^ (8 - (lo + len)) * (2 ^ len * 2 ^ lo) := by
    rw [← pow_add, ← pow_add, show 8 - (lo + len) + (len + lo) = 8 by omega]
    rfl
  have inputs : ((List.range 256).map fun n => f (BitVec.ofNat 8 n)).count (f (BitVec.ofNat 8 k)) =
      Nat.count (fun n => n / 2 ^ lo % 2 ^ len = k / 2 ^ lo % 2 ^ len) 256 := by
    rw [List.count_eq_countP, List.countP_map, Nat.count]
    refine List.countP_congr fun n _ => ?_
    simp [hf.eq_iff hlo hlen h8]
  rw [inputs, bytes, count_div_mod _ (Nat.two_pow_pos lo) (Nat.mod_lt _ (Nat.two_pow_pos len)), ← pow_add,
    show 8 - (lo + len) + lo = 8 - len by omega]

/-- So it takes as many values as the field has. -/
theorem IsLaneAt.dedup_length :
    ((List.range 256).map fun n => f (BitVec.ofNat 8 n)).dedup.length = 2 ^ len := by
  refine Nat.eq_of_mul_eq_mul_right (Nat.two_pow_pos (8 - len)) ?_
  rw [dedup_length_mul_count (hf.count_eq hlo hlen h8), List.length_map, List.length_range, ← pow_add,
    Nat.add_sub_cancel' (by omega)]
  rfl

end

/-! ### The lanes as bytes of the expanded word -/

/-- A 24-bit word as the number its three bytes give, the least significant first (R26). -/
theorem toNat_eq_bytes (e : Expanded) :
    e.toNat = (e.extractLsb' 0 8).toNat + 0x100 * (e.extractLsb' 8 8).toNat + 0x10000 * (e.extractLsb' 16 8).toNat := by
  simp only [BitVec.extractLsb'_toNat, Nat.shiftRight_eq_div_pow]
  omega

/-! ### Lane 0 fed back -/

/-- A byte whose bits are all one bit. -/
theorem eq_zero_or_allOnes_of_bits {v : Byte} {b : Bool} (h : ∀ j < 8, v.getLsbD j = b) : v = 0x00 ∨ v = 0xFF := by
  cases b with
  | false => exact .inl (BitVec.eq_of_getLsbD_eq fun j hj => by rw [h j hj]; simp)
  | true => exact .inr (BitVec.eq_of_getLsbD_eq fun j hj => by rw [h j hj]; interval_cases j <;> rfl)

/-- Lane 0 is the input itself for 0x00 and 0xFF alone: bit j of such an input is its bit `j / 3`, so in the end its bit 0. -/
theorem lane0_eq_self_iff (v : Byte) : (decomposeWord (spreadWord v)).lane0 = v ↔ v = 0x00 ∨ v = 0xFF := by
  constructor
  · intro h
    have third (j : Nat) (hj : j < 8) : v.getLsbD j = v.getLsbD (j / 3) := by
      rw [← (lanes_getLsbD v hj).1, h]
    refine eq_zero_or_allOnes_of_bits (b := v.getLsbD 0) fun j hj => ?_
    have hninth : j / 3 / 3 = 0 := by omega
    rw [third j hj, third (j / 3) (by omega), hninth]
  · rintro (rfl | rfl) <;> decide

/-- Lane 0 of lane 0 repeats the input's bit 0. -/
theorem lane0_lane0_eq (v : Byte) :
    (decomposeWord (spreadWord (decomposeWord (spreadWord v)).lane0)).lane0 = 0x00 ∨
      (decomposeWord (spreadWord (decomposeWord (spreadWord v)).lane0)).lane0 = 0xFF := by
  refine eq_zero_or_allOnes_of_bits (b := v.getLsbD 0) fun j hj => ?_
  have hninth : j / 3 / 3 = 0 := by omega
  rw [(lanes_getLsbD _ hj).1, (lanes_getLsbD v (by omega)).1, hninth]

/-! ### The obligations -/

/-- Settles O15: the bits are `lanes_getLsbD`, and the lanes repeat 3, 4 and 3 bits of the input. -/
theorem laneClosedForms : Obligations.LaneClosedForms := by
  unfold Obligations.LaneClosedForms
  refine ⟨fun s v hv => ⟨_, settle_driven s v hv, isLaneAt_lane0.bits_eq v, isLaneAt_lane1.bits_eq v,
    isLaneAt_lane2.bits_eq v⟩, ?_⟩
  have count0 := isLaneAt_lane0.count_eq (lo := 0) (len := 3) rfl rfl (by decide)
  have count1 := isLaneAt_lane1.count_eq (lo := 2) (len := 4) rfl rfl (by decide)
  have count2 := isLaneAt_lane2.count_eq (lo := 5) (len := 3) rfl rfl (by decide)
  exact ⟨isLaneAt_lane0.dedup_length (lo := 0) (len := 3) rfl rfl (by decide),
    isLaneAt_lane1.dedup_length (lo := 2) (len := 4) rfl rfl (by decide),
    isLaneAt_lane2.dedup_length (lo := 5) (len := 3) rfl rfl (by decide), count0, count1, count2⟩

/-- Settles O17: the invariant's lanes are the slices of the invariant's expanded word. -/
theorem laneByteOrder : Obligations.LaneByteOrder := by
  unfold Obligations.LaneByteOrder
  intro s hi hs
  obtain ⟨v, hc⟩ := hi.settled hs
  have hlanes := hc.lanes
  rw [← hc.expanded, decomposeWord_eq_slices] at hlanes
  rw [hlanes]
  exact ⟨toNat_eq_bytes _, rfl, rfl, rfl⟩

/-- Settles O18: each settling gives lane 0 of its input. -/
theorem laneZeroFixedPoints : Obligations.LaneZeroFixedPoints := by
  unfold Obligations.LaneZeroFixedPoints
  intro s t u v hv ht hu
  rw [settle_driven s v hv] at ht
  cases ht
  rw [settle_driven _ _ (State.driveInput_valueIn _ _)] at hu
  cases hu
  exact ⟨lane0_eq_self_iff v, lane0_lane0_eq v⟩

end Sys2Proof.Machine
end

section
/-! PROOFS. The operations on every state: what each leaves alone, when it is refused, that a settled block stays as it is, and
that an operation is what its stages do (40_spread.md R48, 41_decompose.md R58, 60_exceptions.md R75, 20_memory.md R29). -/

namespace Sys2Proof.Machine

/-! ### What an operation changes -/

/-- All that an operation can change: DECOMPOSE the lanes, every other one the nets. -/
theorem exec_eq_next {i : Instr} {s t : State} (h : exec i s = .next t) :
    (i ≠ .decompose ∧ t = { s with nets := t.nets }) ∨ (i = .decompose ∧ t = { s with lanes := t.lanes }) := by
  cases i with
  | stg1 =>
    cases hv : s.valueIn with
    | undriven => exact nomatch (withInput_undriven s _ hv).symm.trans h
    | driven v =>
      obtain rfl := Host.Outcome.next.inj ((exec_stg1_driven hv).symm.trans h)
      exact .inl ⟨by decide, rfl⟩
  | stg2 => cases h; exact .inl ⟨by decide, rfl⟩
  | stg3 => cases h; exact .inl ⟨by decide, rfl⟩
  | stg4 => cases h; exact .inl ⟨by decide, rfl⟩
  | spread =>
    obtain ⟨v, -, rfl⟩ := exec_spread_eq_next h
    exact .inl ⟨by decide, rfl⟩
  | decompose => cases h; exact .inr ⟨rfl, rfl⟩

/-- Settles O19: the next state is the old one with other nets, or with other lanes. -/
theorem operationsLeaveTheRestAlone : Obligations.OperationsLeaveTheRestAlone := by
  unfold Obligations.OperationsLeaveTheRestAlone
  intro i s t h
  rcases exec_eq_next h with ⟨hi, ht⟩ | ⟨hi, ht⟩ <;> rw [ht]
  · exact ⟨rfl, rfl, rfl, rfl, rfl, fun _ => rfl, fun hd => absurd hd hi⟩
  · exact ⟨rfl, rfl, rfl, rfl, rfl, fun hd => absurd hi hd, fun _ => rfl⟩

/-! ### Without a defined input -/

theorem exec_stg1_undriven {s : State} (h : s.valueIn = .undriven) : exec .stg1 s = .refused .undefinedInput :=
  withInput_undriven s _ h

theorem exec_spread_undriven {s : State} (h : s.valueIn = .undriven) : exec .spread s = .refused .undefinedInput :=
  withInput_undriven s _ h

theorem hostStep_wait_undriven {s : State} (h : s.valueIn = .undriven) : hostStep .wait s = .refused .undefinedInput := by
  rw [hostStep, hostWait, settle_undriven s h, Result.andThen_refused]

/-- Settles O21: STG1, SPREAD and settling read the port; the rest read nets; and no line may leave the port undefined. -/
theorem undefinedInputIsRefused : Obligations.UndefinedInputIsRefused := by
  unfold Obligations.UndefinedInputIsRefused
  refine fun s => ⟨fun hv => ⟨exec_stg1_undriven hv, exec_spread_undriven hv, settle_undriven s hv, ?_, ?_⟩, rfl,
    fun hl => State.lineEnds_of_hostStep hl fun _ _ _ => rfl⟩
  · rintro (hl | hl)
    · rw [step_of_no_line s hl, settle_undriven s hv]
    · rw [step_of_hosts_turn hl (.inr hv), hostStep_wait_undriven hv]
  · simp only [List.forall_mem_cons]
    exact ⟨⟨_, exec_stg2 s⟩, ⟨_, exec_stg3 s⟩, ⟨_, exec_stg4 s⟩, ⟨_, exec_decompose s⟩, nofun⟩

/-! ### A settled block -/

/-- Where the nets and lanes carry the input's evaluation, an operation drives what is there already. -/
theorem State.Carries.exec_eq {s : State} {v : Byte} (hc : s.Carries v) (i : Instr) : exec i s = .next s := by
  cases i with
  | stg1 => rw [exec_stg1_driven hc.input, ← hc.v1]
  | stg2 => rw [exec_stg2, hc.v1, ← hc.v2]
  | stg3 => rw [exec_stg3, hc.v2, ← hc.v3]
  | stg4 => rw [exec_stg4, hc.v3, ← spreadWord, ← hc.expanded]
  | spread => rw [exec_spread_driven s v hc.input, ← hc.nets_eq]
  | decompose => rw [exec_decompose, hc.expanded, ← hc.lanes]

theorem State.Carries.settle_eq {s : State} {v : Byte} (hc : s.Carries v) (hs : s.status = .settled) :
    settle s = .next s := by
  rw [settle_driven s v hc.input, State.evaluated, ← hc.nets_eq, ← hc.lanes, ← hs]

/-- Settles O22: the invariant's settled block carries its input's evaluation, so nothing is driven afresh. -/
theorem settledStateIsAFixedPoint : Obligations.SettledStateIsAFixedPoint := by
  unfold Obligations.SettledStateIsAFixedPoint
  intro s hi hs
  obtain ⟨v, hc⟩ := hi.settled hs
  exact ⟨hc.exec_eq, hc.settle_eq hs⟩

/-! ### Operations and their stages -/

theorem runOps_append (is js : List Instr) (s : State) :
    runOps (is ++ js) s = Result.andThen (runOps is s) (runOps js) := by
  induction is generalizing s with
  | nil => rfl
  | cons i is ih =>
    simp only [List.cons_append, runOps]
    cases exec i s with
    | next t => exact ih t
    | fault r => rfl
    | refused r => rfl

theorem runOps_singleton (i : Instr) (s : State) : runOps [i] s = exec i s := by
  rw [runOps]
  cases exec i s <;> rfl

/-- Every operation is what its stages do in series. -/
theorem runOps_stages (i : Instr) (s : State) : runOps i.stages s = exec i s := by
  cases i with
  | spread => exact runOps_stages_eq_exec_spread s
  | stg1 => exact runOps_singleton .stg1 s
  | stg2 => exact runOps_singleton .stg2 s
  | stg3 => exact runOps_singleton .stg3 s
  | stg4 => exact runOps_singleton .stg4 s
  | decompose => exact runOps_singleton .decompose s

/-- So it is for any operations in any order, not only those of an evaluation. -/
theorem runOps_flatMap_stages (is : List Instr) (s : State) : runOps (is.flatMap Instr.stages) s = runOps is s := by
  induction is generalizing s with
  | nil => rfl
  | cons i is ih =>
    rw [List.flatMap_cons, runOps_append, runOps_stages, runOps, funext ih]

/-- Settles O23, by `runOps_flatMap_stages` for the evaluation's operations. -/
theorem stagesGiveTheSameEvaluation : Obligations.StagesGiveTheSameEvaluation := by
  unfold Obligations.StagesGiveTheSameEvaluation
  exact fun e s _ => runOps_flatMap_stages e.ops s

end Sys2Proof.Machine
end

section
/-! PROOFS. The step and the word it evaluates (30_encoding.md R36, R43; log entries 6 and 7), and the only grounds on which a
step is refused (60_exceptions.md R64, R75; log entry 8). -/

namespace Sys2Proof.Machine

/-! ### What a step evaluates -/

theorem settle_of_decode {s : State} {e : Evaluation} {rest : List Byte} (h : decode s.valueIn.words = .ok (e, rest)) :
    settle s = Result.andThen (runOps e.ops s) fun t => .next t.markSettled := by
  rw [settle, h]

/-- A word that decodes was driven on the port. -/
theorem PortLevel.eq_driven_of_words {p : PortLevel} {v : Byte} {rest : List Byte} (h : p.words = v :: rest) :
    p = .driven v := by
  cases p with
  | undriven => cases h
  | driven w => cases h; rfl

/-- Settles O26: with no host line the step settles, by SPREAD and DECOMPOSE on the driven value. -/
theorem stepRunsTheDecodedEvaluation : Obligations.StepRunsTheDecodedEvaluation := by
  unfold Obligations.StepRunsTheDecodedEvaluation
  intro s e rest hl hd
  obtain ⟨hwords, hops⟩ := decode_eq_ok hd
  have hv : s.valueIn = .driven e.value := PortLevel.eq_driven_of_words hwords
  have hstep := step_of_no_line s hl
  exact ⟨hstep.trans (settle_of_decode hd), hops, _, _, exec_spread_driven s e.value hv, exec_decompose _,
    hstep.trans (settle_driven s e.value hv)⟩

theorem State.withFetchWord_of_lt (s : State) (nbits : Nat) {w : Nat} (hw : w < 256) :
    s.withFetchWord nbits w =
      { s.driveInput (BitVec.ofNat 8 w) with host := { s.host with program := [], line := 0 } } :=
  if_pos hw

/-- Settles O27: the placed word is on the port and the host has no line, so the step settles on it. -/
theorem fetchedWordIsEvaluatedNext : Obligations.FetchedWordIsEvaluatedNext := by
  unfold Obligations.FetchedWordIsEvaluatedNext
  intro s nbits w hw
  rw [s.withFetchWord_of_lt nbits hw]
  refine ⟨_, (step_of_no_line _ rfl).trans (settle_driven _ (BitVec.ofNat 8 w) rfl), rfl, rfl, rfl, fun j hj => ?_⟩
  have bit (i : Nat) (hi : i < 8) : w.testBit i = (BitVec.ofNat 8 w).getLsbD i := by
    rw [BitVec.getLsbD_ofNat, decide_eq_true hi, Bool.true_and]
  rw [bit _ (by omega), bit _ (by omega), bit _ (by omega)]
  exact lanes_getLsbD (BitVec.ofNat 8 w) hj

/-! ### Why a step is refused -/

theorem settle_eq_refused {s : State} {r : Refusal} (h : settle s = .refused r) :
    r = .undefinedInput ∧ s.valueIn = .undriven := by
  rcases settle_cases s with ⟨t, ht⟩ | ⟨hv, hr⟩
  · exact nomatch ht.symm.trans h
  · exact ⟨(Host.Outcome.refused.inj (hr.symm.trans h)).symm, hv⟩

theorem withExpr_eq_refused {s : State} {e : HostExpr} {f : Nat → Result} {r : Refusal}
    (h : withExpr s e f = .refused r) :
    (∃ n, e.eval s.host.vars = .ok n ∧ f n = .refused r) ∨
      ∃ q, e.eval s.host.vars = .error q ∧ r = .unsetHostVariable q := by
  cases he : e.eval s.host.vars with
  | ok n => exact .inl ⟨n, rfl, (withExpr_ok s e f n he).symm.trans h⟩
  | error q => exact .inr ⟨q, rfl, (Host.Outcome.refused.inj ((withExpr_error s e f q he).symm.trans h)).symm⟩

/-- Driving a number onto the port is refused for its range only, where what follows completes. -/
theorem withByte_eq_refused {n : Int} {f : Byte → Result} {r : Refusal} (hf : ∀ v, ∃ t, f v = .next t)
    (h : withByte n f = .refused r) : r = .invalidInputRange ∧ (n < 0 ∨ 255 < n) := by
  by_cases hn : n < 0 ∨ 255 < n
  · exact ⟨(Host.Outcome.refused.inj ((withByte_of_outside n f hn).symm.trans h)).symm, hn⟩
  · rw [withByte_of_range n f (by omega) (by omega)] at h
    obtain ⟨t, ht⟩ := hf (BitVec.ofNat 8 n.toNat)
    exact nomatch ht.symm.trans h

/-- All the grounds on which a host line can be refused. -/
theorem hostStep_eq_refused {l : HostLine} {s : State} {r : Refusal} (h : hostStep l s = .refused r) :
    (r = .undefinedInput ∧ (l = .applyUndefined ∨ (s.valueIn = .undriven ∧ l = .wait))) ∨
    (r = .invalidInputRange ∧
      ((∃ r0 r1 r2, l = .call .notInteger r0 r1 r2) ∨
        (∃ n r0 r1 r2, l = .call (.integer n) r0 r1 r2 ∧ (n < 0 ∨ 255 < n)) ∨
        ∃ e n, l = .apply e ∧ e.eval s.host.vars = .ok n ∧ 255 < n)) ∨
    ∃ q e, r = .unsetHostVariable q ∧ e.eval s.host.vars = .error q ∧
      (l = .apply e ∨ (∃ x, l = .set x e) ∨ ∃ k, l = .ifGoto e k) := by
  cases l with
  | apply e =>
    rcases withExpr_eq_refused h with ⟨n, he, h⟩ | ⟨q, he, hr⟩
    · obtain ⟨hr, hn⟩ := withByte_eq_refused (fun v => ⟨_, rfl⟩) h
      exact .inr (.inl ⟨hr, .inr (.inr ⟨e, n, rfl, he, by omega⟩)⟩)
    · exact .inr (.inr ⟨q, e, hr, he, .inl rfl⟩)
  | applyUndefined => exact .inl ⟨(Host.Outcome.refused.inj h).symm, .inl rfl⟩
  | wait =>
    rcases settle_cases s with ⟨t, ht⟩ | ⟨hv, -⟩
    · rw [hostStep, hostWait, ht] at h
      cases h
    · exact .inl ⟨(Host.Outcome.refused.inj ((hostStep_wait_undriven hv).symm.trans h)).symm, .inr ⟨hv, rfl⟩⟩
  | sample r0 r1 r2 => cases h
  | set x e =>
    rcases withExpr_eq_refused h with ⟨n, -, h⟩ | ⟨q, he, hr⟩
    · cases h
    · exact .inr (.inr ⟨q, e, hr, he, .inr (.inl ⟨x, rfl⟩)⟩)
  | ifGoto e k =>
    rcases withExpr_eq_refused h with ⟨n, -, h⟩ | ⟨q, he, hr⟩
    · split at h <;> cases h
    · exact .inr (.inr ⟨q, e, hr, he, .inr (.inr ⟨k, rfl⟩)⟩)
  | call a r0 r1 r2 =>
    cases a with
    | notInteger => exact .inr (.inl ⟨(Host.Outcome.refused.inj h).symm, .inl ⟨r0, r1, r2, rfl⟩⟩)
    | integer n =>
      have completes (v : Byte) : ∃ t, (Result.andThen (settle (s.driveInput v)) fun t =>
          .next (t.afterSample.keepSample t.sampled r0 r1 r2).nextLine) = .next t := by
        rw [settle_driven _ v rfl]
        exact ⟨_, rfl⟩
      obtain ⟨hr, hn⟩ := withByte_eq_refused completes h
      exact .inr (.inl ⟨hr, .inr (.inl ⟨n, r0, r1, r2, rfl, hn⟩)⟩)

/-- Why a step at a host line is refused: the line is, from this state or from the one with a free value drawn. -/
theorem step_eq_refused_at_line {s : State} {l : HostLine} {r : Refusal} (hl : s.host.current = some l)
    (h : step s = .refused r) : hostStep l s = .refused r ∨ hostStep l s.drawn = .refused r := by
  rw [step_of_line s l hl] at h
  rcases takeLine_cases s l with e | ⟨-, -, ⟨v, hv⟩, e | e⟩ <;> rw [e] at h
  · exact .inl h
  · exact .inr h
  · exact nomatch (settle_driven s.drawn v hv).symm.trans h

/-- Settles O28: with no line the step is the settling, and at a line it is refused on a ground of the line's own, on which a
draw has no bearing. -/
theorem stepRefusesOnlyOnTheseGrounds : Obligations.StepRefusesOnlyOnTheseGrounds := by
  unfold Obligations.StepRefusesOnlyOnTheseGrounds
  intro s r h
  cases hl : s.host.current with
  | none =>
    obtain ⟨hr, hv⟩ := settle_eq_refused ((step_of_no_line s hl).symm.trans h)
    exact .inl ⟨hr, .inr ⟨hv, .inl rfl⟩⟩
  | some l =>
    simp only [Option.some.injEq, reduceCtorEq, false_or]
    rcases step_eq_refused_at_line hl h with h | h
    · exact hostStep_eq_refused h
    · exact hostStep_eq_refused (s := s.drawn) h

end Sys2Proof.Machine
end

section
/-! PROOFS. APPLY, WAIT and CALL (30_encoding.md R43, 70_reset_and_hazards.md R79, R85), and that the machine's WAIT agrees with
the block in time (R79). -/

namespace Sys2Proof.Machine

/-! ### What the lines do -/

theorem hostStep_apply_of_eval {s : State} {e : HostExpr} {v : Byte} (he : e.eval s.host.vars = .ok v.toNat) :
    hostStep (.apply e) s = .next (s.driveInput v).nextLine :=
  (withExpr_ok s e _ _ he).trans (withByte_toNat v _)

theorem hostStep_wait_driven {s : State} {v : Byte} (hv : s.valueIn = .driven v) :
    hostStep .wait s = .next (s.evaluated v).nextLine := by
  rw [hostStep, hostWait, settle_driven s v hv, Result.andThen_next]

/-! ### No transition moves a block to another stream of free values -/

theorem Moves.stream_eq {s t : State} (h : Moves s t) : t.stream = s.stream := by
  cases h with
  | draw => rfl
  | block _ h =>
    obtain ⟨v, -, rfl⟩ := settle_eq_next s t h
    rfl
  | host l _ _ h =>
    rcases hostStep_eq_next s t l h with
      ⟨_, _, -, -, rfl⟩ | ⟨_, -, -, rfl⟩ | ⟨_, _, _, -, rfl⟩ | ⟨_, _, _, -, -, rfl⟩ | ⟨_, _, _, -, -, rfl⟩ |
      ⟨_, _, _, _, -, rfl⟩
    · rfl
    · rfl
    · exact s.afterSample_stream
    · rfl
    · split <;> rfl
    · rfl

theorem Reaches.stream_eq {s t : State} (h : Reaches s t) : t.stream = s.stream := by
  induction h with
  | here => rfl
  | further _ _ _ hm ih => exact hm.stream_eq.trans ih

theorem step_stream_eq {s t : State} (h : step s = .next t) : t.stream = s.stream :=
  (stepTakesOneTransition.2 s t h).2.stream_eq

/-- However a line ends, it ends on the block's own stream. -/
theorem State.LineEnds.and_stream {s : State} {P : Host.Outcome State Fault Refusal → Prop} (h : s.LineEnds P) :
    s.LineEnds fun o => P o ∧ ∀ t, o = .next t → t.stream = s.stream := by
  rcases h with hP | ⟨u, hu, hhost, hblock, hP⟩
  · exact .inl ⟨hP, fun t ht => step_stream_eq ht⟩
  · exact .inr ⟨u, hu, hhost, hblock, hP, fun t ht => (step_stream_eq ht).trans (step_stream_eq hu)⟩

theorem State.LineEnds.imp {s : State} {P Q : Host.Outcome State Fault Refusal → Prop} (h : s.LineEnds P)
    (hPQ : ∀ o, P o → Q o) : s.LineEnds Q := by
  rcases h with hP | ⟨u, hu, hhost, hblock, hP⟩
  · exact .inl (hPQ _ hP)
  · exact .inr ⟨u, hu, hhost, hblock, hPQ _ hP⟩

/-! ### The obligations -/

/-- Settles O29: the line drives the input from every state whose host gives the expression that byte, so also from the one the
block's settling leaves. -/
theorem applyStartsASettlingWindow : Obligations.ApplyStartsASettlingWindow := by
  unfold Obligations.ApplyStartsASettlingWindow
  intro s e v he
  refine ⟨⟨_, hostStep_apply_of_eval he, rfl, rfl, rfl⟩, fun hl => ?_⟩
  have ends : s.LineEnds fun o => ∃ t, o = .next t ∧ t.toBlock = Block.apply v ∧
      t.host = { s.host with line := s.host.line + 1 } :=
    State.lineEnds_of_hostStep hl fun u hu _ => by
      rw [← hu] at he ⊢
      exact ⟨_, hostStep_apply_of_eval he, rfl, rfl⟩
  refine ends.and_stream.imp ?_
  rintro o ⟨⟨t, rfl, hblock, hhost⟩, hstream⟩
  exact ⟨t, rfl, congrArg Block.valueIn hblock, congrArg Block.status hblock, hstream t rfl, hhost⟩

/-- Settles O30: a WAIT takes the settling itself, and the settled lanes are the bit runs. -/
theorem waitSettlesTheBlock : Obligations.WaitSettlesTheBlock := by
  unfold Obligations.WaitSettlesTheBlock
  intro s v hl hv
  have hstep : step s = hostStep .wait s := (step_of_line s _ hl).trans (takeLine_wait s)
  exact ⟨_, hstep.trans (hostStep_wait_driven hv), hv, rfl, rfl, rfl, rfl, fun _ hj => lanes_getLsbD v hj⟩

/-- Settles O34: the three lines one after the other are the call, but for the host's line. -/
theorem callIsApplyWaitSample : Obligations.CallIsApplyWaitSample := by
  unfold Obligations.CallIsApplyWaitSample
  intro s n r0 r1 r2 hn
  obtain ⟨v, rfl⟩ : ∃ v : Byte, v.toNat = n := ⟨BitVec.ofNat 8 n, by rw [BitVec.toNat_ofNat, Nat.mod_eq_of_lt hn]⟩
  refine ⟨_, hostStep_call_toNat v r0 r1 r2 s, ?_⟩
  rw [hostStep_apply_of_eval (v := v) rfl, Result.andThen_next, hostStep_wait_driven (v := v) rfl, Result.andThen_next,
    hostStep_sample_of_settled (v := v) r0 r1 r2 rfl rfl]
  rfl

/-- Settles O44: both show the lanes of the held value. -/
theorem waitAgreesWithTime : Obligations.WaitAgreesWithTime := by
  unfold Obligations.WaitAgreesWithTime
  intro tpd input output s t u v at_ _ hshows hsettled ht hu
  obtain rfl := Host.Outcome.next.inj ((hostStep_apply_of_eval rfl).symm.trans ht)
  obtain rfl := Host.Outcome.next.inj ((hostStep_wait_driven rfl).symm.trans hu)
  exact hshows at_ v hsettled

end Sys2Proof.Machine
end

section
/-! PROOFS. What a step does not depend on and does not touch: the levels of the nets (10_state.md R13, R19), and the other
instances beside the block that takes it (60_exceptions.md R72). -/

namespace Sys2Proof.Machine

/-! ### The nets -/

/-- Settles O41: `step_levelBlind` for other nets and the same lanes. -/
theorem netsAreNotObservable : Obligations.NetsAreNotObservable := by
  unfold Obligations.NetsAreNotObservable
  intro s t n ht
  change ∃ t', step (s.withLevels ⟨n, s.lanes⟩) = .next t' ∧ _
  rcases step_levelBlind s ⟨n, s.lanes⟩ with h | ⟨h, hkeep⟩
  · exact ⟨t, h.trans ht, rfl, fun _ _ => rfl⟩
  · obtain ⟨hblock, hlevels⟩ := hkeep t ht
    have hlanes : s.lanes = t.lanes := congrArg Levels.lanes hlevels.symm
    refine ⟨t.withLevels ⟨n, s.lanes⟩, by rw [h, ht]; rfl, by rw [hlanes]; rfl, fun ht' hs => ?_⟩
    have hstatus : t.status = s.status := congrArg Block.status hblock
    exact nomatch ht'.symm.trans (hstatus.trans hs)

/-! ### The instances of a system -/

/-- Block `k` of a system takes a step when it is there and its own step completes, and its place alone changes. -/
theorem System.stepAt_eq_next_iff {sys sys' : System} {k : Nat} :
    sys.stepAt k = .next sys' ↔ ∃ s t, sys[k]? = some s ∧ step s = .next t ∧ sys' = sys.set k t := by
  unfold System.stepAt
  cases sys[k]? with
  | none => simp
  | some s => cases hs : step s <;> simp [hs, eq_comm]

theorem System.stepTwo_eq_next_iff {sys sys' : System} {j k : Nat} :
    sys.stepTwo j k = .next sys' ↔ ∃ mid, sys.stepAt j = .next mid ∧ mid.stepAt k = .next sys' := by
  unfold System.stepTwo
  cases sys.stepAt j <;> simp

/-- Settles O42: a step writes its own block's place, and two writes at different places commute. -/
theorem instancesAreIndependent : Obligations.InstancesAreIndependent := by
  unfold Obligations.InstancesAreIndependent
  constructor
  · intro sys sys' k j h hjk
    obtain ⟨s, t, -, -, rfl⟩ := System.stepAt_eq_next_iff.mp h
    exact List.getElem?_set_ne hjk.symm
  · intro sys sys' j k hjk h
    obtain ⟨mid, hj, hk⟩ := System.stepTwo_eq_next_iff.mp h
    obtain ⟨s, t, hs, hst, rfl⟩ := System.stepAt_eq_next_iff.mp hj
    obtain ⟨s', t', hs', hst', rfl⟩ := System.stepAt_eq_next_iff.mp hk
    rw [List.getElem?_set_ne hjk] at hs'
    rw [← List.getElem?_set_ne hjk.symm] at hs
    exact System.stepTwo_eq_next_iff.mpr ⟨_, System.stepAt_eq_next_iff.mpr ⟨s', t', hs', hst', rfl⟩,
      System.stepAt_eq_next_iff.mpr ⟨s, t, hs, hst, List.set_comm t t' hjk⟩⟩

end Sys2Proof.Machine
end
